-- ==== Sys2Proof/Word.lean ====
section
/-! DEFINITION. The word types of the CHIP-8 core: spec/00_scope.md rules R6 to R10. Every value is an unsigned
integer of a stated width (R8), so the types are plain bit vectors; a register number, which no rule adds or masks,
is a number below 16. -/

namespace Sys2Proof

/-- An 8-bit value: a V register, a timer, a byte of RAM, the immediate `kk` (R6). -/
abbrev Byte := BitVec 8

/-- A 16-bit value: `PC`, `I`, a stack entry, an opcode (R6). -/
abbrev Word := BitVec 16

/-- The 12-bit address immediate `nnn` (R10, R103). -/
abbrev Addr12 := BitVec 12

/-- The 4-bit count `n` (R10, R103). -/
abbrev Nibble := BitVec 4

/-- The number of a general register, and the number of a key: 0 to 15 (R30, R40). -/
abbrev RegIx := Fin 16

end Sys2Proof
end

