-- ==== Sys2Proof/Config.lean ====
section
/-! DEFINITION. The implementation parameters of spec/00_scope.md rule R6 at the values this hardware takes, and the
one free value of the model: the random byte. -/

namespace Sys2Proof.Config

/-- `RAM_SIZE`: 4096 bytes, addresses 0x000 to 0xFFF (R6, R42). -/
def ramSize : Nat := 4096

/-- `PROG_BASE`: where `load` puts the program (R6). -/
def progBase : Nat := 0x200

/-- `MAX_ROM`: 4096 - 0x200 = 3584 bytes (R6). -/
def maxRom : Nat := ramSize - progBase

/-- `RESET_PC`: the entry point (R6, R48; decision D3 of spec/92). -/
def resetPc : Word := 0x200

/-- `STEPS_PER_FRAME` (R6, R271; decision D22). -/
def stepsPerFrame : Nat := 9

/-- `ADD_MODULUS` of `ADD Vx, Vy` (R6, R167; decision D5). -/
def addModulus : Nat := 255

/-- `FONT_GLYPH_BYTES`: rows of one glyph (R6, R47). -/
def fontGlyphBytes : Nat := 5

/-- `FONT`, glyphs 0 to 7, five bytes each (R47). -/
def fontLow : List Byte :=
  [0xF0, 0x90, 0x90, 0x90, 0xF0] ++ [0x20, 0x60, 0x20, 0x20, 0x70] ++ [0xF0, 0x10, 0xF0, 0x80, 0xF0] ++
  [0xF0, 0x10, 0xF0, 0x10, 0xF0] ++ [0x90, 0x90, 0xF0, 0x10, 0x10] ++ [0xF0, 0x80, 0xF0, 0x10, 0xF0] ++
  [0xF0, 0x80, 0xF0, 0x90, 0xF0] ++ [0xF0, 0x10, 0x20, 0x40, 0x40]

/-- `FONT`, glyphs 8 to F, five bytes each (R47). -/
def fontHigh : List Byte :=
  [0xF0, 0x90, 0xF0, 0x90, 0xF0] ++ [0xF0, 0x90, 0xF0, 0x10, 0xF0] ++ [0xF0, 0x90, 0xF0, 0x90, 0x90] ++
  [0xE0, 0x90, 0xE0, 0x90, 0xE0] ++ [0xF0, 0x80, 0x80, 0x80, 0xF0] ++ [0xE0, 0x90, 0x90, 0x90, 0xE0] ++
  [0xF0, 0x80, 0xF0, 0x80, 0xF0] ++ [0xF0, 0x80, 0xF0, 0x80, 0x80]

/-- `FONT`: the 80 bytes of the font table at 0x000 (R47). UNVERIFIED: the values are R47's, which the spec marks as
general knowledge and not from its source (decision D4, entry G2 of spec/93); assumption log entry 5. -/
def font : List Byte := fontLow ++ fontHigh

/-- A FREE VALUE: the byte the random input gives at the `n`-th draw. The spec says it is an input with no law (R176,
decision D27, entry U8 of spec/93), so nothing is known of it; assumption log entry 2. -/
opaque randByte : Nat → Byte

end Sys2Proof.Config
end

