-- ==== Sys2Proof/Syntax.lean ====
section
/-! DEFINITION. The abstract syntax: one constructor per row of spec/opcode_table.json, 35 instructions and the UNKNOWN
fallback (spec/30_encoding.md rules R110 to R112). Operand names are the spec's (R10): `x` and `y` registers, `kk` a
byte, `nnn` a 12-bit address, `n` a nibble. A field the decoder reads but the instruction ignores (the low nibble of
`5xyn` and `9xyn`, decision D17; the `y` of `8xy6` and `8xyE`, R169 and R171) is kept, so that no bit of the opcode is
lost (R114); assumption log entry 11. -/

namespace Sys2Proof

/-- A decoded instruction. -/
inductive Instr where
  /-- `00E0` CLS (R210). -/
  | cls
  /-- `00EE` RET (R141). -/
  | ret
  /-- `0nnn` SYS addr, but for 00E0 and 00EE (R142). -/
  | sys (nnn : Addr12)
  /-- `1nnn` JMP addr (R143). -/
  | jmp (nnn : Addr12)
  /-- `2nnn` CALL addr (R144). -/
  | call (nnn : Addr12)
  /-- `3xkk` SE Vx, byte (R146). -/
  | seByte (x : RegIx) (kk : Byte)
  /-- `4xkk` SNE Vx, byte (R147). -/
  | sneByte (x : RegIx) (kk : Byte)
  /-- `5xyn` SE Vx, Vy; `n` is ignored (R148). -/
  | seReg (x y : RegIx) (n : Nibble)
  /-- `6xkk` LD Vx, byte (R161). -/
  | ldByte (x : RegIx) (kk : Byte)
  /-- `7xkk` ADD Vx, byte (R162). -/
  | addByte (x : RegIx) (kk : Byte)
  /-- `8xy0` LD Vx, Vy (R163). -/
  | ldReg (x y : RegIx)
  /-- `8xy1` OR Vx, Vy (R164). -/
  | orReg (x y : RegIx)
  /-- `8xy2` AND Vx, Vy (R165). -/
  | andReg (x y : RegIx)
  /-- `8xy3` XOR Vx, Vy (R166). -/
  | xorReg (x y : RegIx)
  /-- `8xy4` ADD Vx, Vy (R167). -/
  | addReg (x y : RegIx)
  /-- `8xy5` SUB Vx, Vy (R168). -/
  | subReg (x y : RegIx)
  /-- `8xy6` SHR Vx; `y` is ignored (R169). -/
  | shr (x y : RegIx)
  /-- `8xy7` SUBN Vx, Vy (R170). -/
  | subnReg (x y : RegIx)
  /-- `8xyE` SHL Vx; `y` is ignored (R171). -/
  | shl (x y : RegIx)
  /-- `9xyn` SNE Vx, Vy; `n` is ignored (R149). -/
  | sneReg (x y : RegIx) (n : Nibble)
  /-- `Annn` LD I, addr (R190). -/
  | ldI (nnn : Addr12)
  /-- `Bnnn` JP V0, addr (R145). -/
  | jpV0 (nnn : Addr12)
  /-- `Cxkk` RND Vx, byte (R176). -/
  | rnd (x : RegIx) (kk : Byte)
  /-- `Dxyn` DRW Vx, Vy, nibble (R212). -/
  | drw (x y : RegIx) (n : Nibble)
  /-- `Ex9E` SKP Vx (R231). -/
  | skp (x : RegIx)
  /-- `ExA1` SKNP Vx (R232). -/
  | sknp (x : RegIx)
  /-- `Fx07` LD Vx, DT (R234). -/
  | ldVxDT (x : RegIx)
  /-- `Fx0A` LD Vx, K (R233). -/
  | ldVxK (x : RegIx)
  /-- `Fx15` LD DT, Vx (R235). -/
  | ldDTVx (x : RegIx)
  /-- `Fx18` LD ST, Vx (R236). -/
  | ldSTVx (x : RegIx)
  /-- `Fx1E` ADD I, Vx (R191). -/
  | addI (x : RegIx)
  /-- `Fx29` LD F, Vx (R192). -/
  | ldF (x : RegIx)
  /-- `Fx33` LD B, Vx (R193). -/
  | ldB (x : RegIx)
  /-- `Fx55` LD [I], Vx (R194). -/
  | stRegs (x : RegIx)
  /-- `Fx65` LD Vx, [I] (R195). -/
  | ldRegs (x : RegIx)
  /-- The UNKNOWN Operation of a word that matches no pattern, with its raw opcode (R112, R252). -/
  | unknown (op : Word)
  deriving DecidableEq, Repr

end Sys2Proof
end

