-- ==== Sys2Proof/WellFormed.lean ====
section
/-! DEFINITION. Which terms of `Instr` are instructions: the ones some opcode decodes to (spec/30_encoding.md rules
R110 to R112). Every operand field is in range by its type; what is left to check is that `SYS` does not name the two
words that are CLS and RET, and that UNKNOWN carries a word of R112's list. -/

namespace Sys2Proof

/-- The low nibbles of family 8 that no instruction has (R112). -/
def unknownNibbles8 : List Nibble := [0x8, 0x9, 0xA, 0xB, 0xC, 0xD, 0xF]

/-- The low bytes of family E that an instruction has (R112). -/
def knownBytesE : List Byte := [0x9E, 0xA1]

/-- The low bytes of family F that an instruction has (R112). -/
def knownBytesF : List Byte := [0x07, 0x0A, 0x15, 0x18, 0x1E, 0x29, 0x33, 0x55, 0x65]

/-- The words that decode to UNKNOWN, as R112 lists them. -/
def isUnknownWord (op : Word) : Bool :=
  (op.extractLsb' 12 4 == 0x8#4 && unknownNibbles8.contains (op.extractLsb' 0 4)) ||
  (op.extractLsb' 12 4 == 0xE#4 && !knownBytesE.contains (op.extractLsb' 0 8)) ||
  (op.extractLsb' 12 4 == 0xF#4 && !knownBytesF.contains (op.extractLsb' 0 8))

/-- The instruction is one that some opcode decodes to. -/
def Instr.wf : Instr → Bool
  | .sys nnn => nnn != 0x0E0 && nnn != 0x0EE
  | .unknown op => isUnknownWord op
  | .cls | .ret | .jmp _ | .call _ | .seByte _ _ | .sneByte _ _ | .seReg _ _ _ | .ldByte _ _ | .addByte _ _
  | .ldReg _ _ | .orReg _ _ | .andReg _ _ | .xorReg _ _ | .addReg _ _ | .subReg _ _ | .shr _ _ | .subnReg _ _
  | .shl _ _ | .sneReg _ _ _ | .ldI _ | .jpV0 _ | .rnd _ _ | .drw _ _ _ | .skp _ | .sknp _ | .ldVxDT _ | .ldVxK _
  | .ldDTVx _ | .ldSTVx _ | .addI _ | .ldF _ | .ldB _ | .stRegs _ | .ldRegs _ => true

end Sys2Proof
end

