-- ==== Sys2Proof/Decode.lean ====
section
/-! DEFINITION. Decoding and encoding (spec/30_encoding.md rules R100 to R114, R120). An opcode is one 16-bit word, its
first byte the high one (R75). `decode` is R111's case analysis, total on every word; a word of no instruction is
rejected by name, as `.unknown` with the word in it. -/

namespace Sys2Proof

/-! ### The fields of an opcode (R101) -/

/-- `op[15:12]`, the primary family selector. -/
def family (op : Word) : BitVec 4 := op.extractLsb' 12 4

/-- `x = op[11:8]`. -/
def fieldX (op : Word) : RegIx := (op.extractLsb' 8 4).toFin

/-- `y = op[7:4]`. -/
def fieldY (op : Word) : RegIx := (op.extractLsb' 4 4).toFin

/-- `n = op[3:0]`. -/
def fieldN (op : Word) : Nibble := op.extractLsb' 0 4

/-- `kk = op[7:0]`. -/
def fieldKK (op : Word) : Byte := op.extractLsb' 0 8

/-- `nnn = op[11:0]`. -/
def fieldNNN (op : Word) : Addr12 := op.extractLsb' 0 12

/-! ### Byte order (R75) -/

/-- The opcode of two fetched bytes: the byte at the lower address is the high one. -/
def opcodeOf (hi lo : Byte) : Word := hi ++ lo

/-- `op[15:8]`, the byte at the lower address. -/
def highByte (op : Word) : Byte := op.extractLsb' 8 8

/-- `op[7:0]`, the byte at the higher address. -/
def lowByte (op : Word) : Byte := op.extractLsb' 0 8

/-! ### Decode (R111) -/

/-- Family 0: exact words for CLS and RET, every other word is SYS (decision D16). -/
def decode0 (op : Word) : Instr :=
  if op = 0x00E0 then .cls else if op = 0x00EE then .ret else .sys (fieldNNN op)

/-- Family 8: the low nibble selects. -/
def decode8 (op : Word) : Instr :=
  match (fieldN op).toNat with
  | 0x0 => .ldReg (fieldX op) (fieldY op)
  | 0x1 => .orReg (fieldX op) (fieldY op)
  | 0x2 => .andReg (fieldX op) (fieldY op)
  | 0x3 => .xorReg (fieldX op) (fieldY op)
  | 0x4 => .addReg (fieldX op) (fieldY op)
  | 0x5 => .subReg (fieldX op) (fieldY op)
  | 0x6 => .shr (fieldX op) (fieldY op)
  | 0x7 => .subnReg (fieldX op) (fieldY op)
  | 0xE => .shl (fieldX op) (fieldY op)
  | _ => .unknown op

/-- Family E: the low byte selects. -/
def decodeE (op : Word) : Instr :=
  match (fieldKK op).toNat with
  | 0x9E => .skp (fieldX op)
  | 0xA1 => .sknp (fieldX op)
  | _ => .unknown op

/-- Family F: the low byte selects. -/
def decodeF (op : Word) : Instr :=
  match (fieldKK op).toNat with
  | 0x07 => .ldVxDT (fieldX op)
  | 0x0A => .ldVxK (fieldX op)
  | 0x15 => .ldDTVx (fieldX op)
  | 0x18 => .ldSTVx (fieldX op)
  | 0x1E => .addI (fieldX op)
  | 0x29 => .ldF (fieldX op)
  | 0x33 => .ldB (fieldX op)
  | 0x55 => .stRegs (fieldX op)
  | 0x65 => .ldRegs (fieldX op)
  | _ => .unknown op

/-- R111: the instruction of an opcode. Families 5 and 9 do not look at the low nibble (decision D17). -/
def decode (op : Word) : Instr :=
  match (family op).toNat with
  | 0x0 => decode0 op
  | 0x1 => .jmp (fieldNNN op)
  | 0x2 => .call (fieldNNN op)
  | 0x3 => .seByte (fieldX op) (fieldKK op)
  | 0x4 => .sneByte (fieldX op) (fieldKK op)
  | 0x5 => .seReg (fieldX op) (fieldY op) (fieldN op)
  | 0x6 => .ldByte (fieldX op) (fieldKK op)
  | 0x7 => .addByte (fieldX op) (fieldKK op)
  | 0x8 => decode8 op
  | 0x9 => .sneReg (fieldX op) (fieldY op) (fieldN op)
  | 0xA => .ldI (fieldNNN op)
  | 0xB => .jpV0 (fieldNNN op)
  | 0xC => .rnd (fieldX op) (fieldKK op)
  | 0xD => .drw (fieldX op) (fieldY op) (fieldN op)
  | 0xE => decodeE op
  | _ => decodeF op    -- 0xF, the one family left

/-! ### Encode (the formats of R102, the values of R110) -/

/-- A register number as the 4 bits of its field (R101). -/
def regBits (x : RegIx) : Nibble := BitVec.ofFin x

/-- Format `F_A`: `ffff nnnn nnnn nnnn`. -/
def wordA (f : BitVec 4) (nnn : Addr12) : Word := f ++ nnn

/-- Formats `F_XK` and `F_X`: `ffff xxxx kkkk kkkk`. -/
def wordXK (f : BitVec 4) (x : RegIx) (kk : Byte) : Word := f ++ regBits x ++ kk

/-- Formats `F_XY` and `F_XYN`: `ffff xxxx yyyy nnnn`. -/
def wordXY (f : BitVec 4) (x y : RegIx) (n : Nibble) : Word := f ++ regBits x ++ regBits y ++ n

/-- The word of an instruction, from the opcode map R110. -/
def encode : Instr → Word
  | .cls => 0x00E0
  | .ret => 0x00EE
  | .sys nnn => wordA 0x0 nnn
  | .jmp nnn => wordA 0x1 nnn
  | .call nnn => wordA 0x2 nnn
  | .seByte x kk => wordXK 0x3 x kk
  | .sneByte x kk => wordXK 0x4 x kk
  | .seReg x y n => wordXY 0x5 x y n
  | .ldByte x kk => wordXK 0x6 x kk
  | .addByte x kk => wordXK 0x7 x kk
  | .ldReg x y => wordXY 0x8 x y 0x0
  | .orReg x y => wordXY 0x8 x y 0x1
  | .andReg x y => wordXY 0x8 x y 0x2
  | .xorReg x y => wordXY 0x8 x y 0x3
  | .addReg x y => wordXY 0x8 x y 0x4
  | .subReg x y => wordXY 0x8 x y 0x5
  | .shr x y => wordXY 0x8 x y 0x6
  | .subnReg x y => wordXY 0x8 x y 0x7
  | .shl x y => wordXY 0x8 x y 0xE
  | .sneReg x y n => wordXY 0x9 x y n
  | .ldI nnn => wordA 0xA nnn
  | .jpV0 nnn => wordA 0xB nnn
  | .rnd x kk => wordXK 0xC x kk
  | .drw x y n => wordXY 0xD x y n
  | .skp x => wordXK 0xE x 0x9E
  | .sknp x => wordXK 0xE x 0xA1
  | .ldVxDT x => wordXK 0xF x 0x07
  | .ldVxK x => wordXK 0xF x 0x0A
  | .ldDTVx x => wordXK 0xF x 0x15
  | .ldSTVx x => wordXK 0xF x 0x18
  | .addI x => wordXK 0xF x 0x1E
  | .ldF x => wordXK 0xF x 0x29
  | .ldB x => wordXK 0xF x 0x33
  | .stRegs x => wordXK 0xF x 0x55
  | .ldRegs x => wordXK 0xF x 0x65
  | .unknown op => op

/-! ### The mnemonic text (R114, R120)

The source gives no exact text (entry N17 of spec/91); this follows R120's spelling, and no rule of the machine reads
it (assumption log entry 12). -/

/-- One hexadecimal digit. -/
def hexDigit (d : Nat) : String :=
  ["0", "1", "2", "3", "4", "5", "6", "7", "8", "9", "A", "B", "C", "D", "E", "F"].getD d "?"

/-- The last `k` hexadecimal digits of a number. -/
def hexDigits : Nat → Nat → String
  | 0, _ => ""
  | k + 1, v => hexDigits k (v / 16) ++ hexDigit (v % 16)

/-- `V` and one hexadecimal digit. -/
def regText (x : RegIx) : String := "V" ++ hexDigit x.val

/-- A byte operand. -/
def byteText (kk : Byte) : String := "0x" ++ hexDigits 2 kk.toNat

/-- An address operand. -/
def addrText (nnn : Addr12) : String := "0x" ++ hexDigits 3 nnn.toNat

/-- Two register operands. -/
def regsText (x y : RegIx) : String := regText x ++ ", " ++ regText y

/-- The mnemonic text of an instruction, in R120's spelling; the shifts without the ignored operand, as the source
writes them, with the register. -/
def mnemonicText : Instr → String
  | .cls => "CLS"
  | .ret => "RET"
  | .sys nnn => "SYS " ++ addrText nnn
  | .jmp nnn => "JMP " ++ addrText nnn
  | .call nnn => "CALL " ++ addrText nnn
  | .seByte x kk => "SE " ++ regText x ++ ", " ++ byteText kk
  | .sneByte x kk => "SNE " ++ regText x ++ ", " ++ byteText kk
  | .seReg x y _ => "SE " ++ regsText x y
  | .ldByte x kk => "LD " ++ regText x ++ ", " ++ byteText kk
  | .addByte x kk => "ADD " ++ regText x ++ ", " ++ byteText kk
  | .ldReg x y => "LD " ++ regsText x y
  | .orReg x y => "OR " ++ regsText x y
  | .andReg x y => "AND " ++ regsText x y
  | .xorReg x y => "XOR " ++ regsText x y
  | .addReg x y => "ADD " ++ regsText x y
  | .subReg x y => "SUB " ++ regsText x y
  | .shr x _ => "SHR " ++ regText x
  | .subnReg x y => "SUBN " ++ regsText x y
  | .shl x _ => "SHL " ++ regText x
  | .sneReg x y _ => "SNE " ++ regsText x y
  | .ldI nnn => "LD I, " ++ addrText nnn
  | .jpV0 nnn => "JP V0, " ++ addrText nnn
  | .rnd x kk => "RND " ++ regText x ++ ", " ++ byteText kk
  | .drw x y n => "DRW " ++ regsText x y ++ ", 0x" ++ hexDigit n.toNat
  | .skp x => "SKP " ++ regText x
  | .sknp x => "SKNP " ++ regText x
  | .ldVxDT x => "LD " ++ regText x ++ ", DT"
  | .ldVxK x => "LD " ++ regText x ++ ", K"
  | .ldDTVx x => "LD DT, " ++ regText x
  | .ldSTVx x => "LD ST, " ++ regText x
  | .addI x => "ADD I, " ++ regText x
  | .ldF x => "LD F, " ++ regText x
  | .ldB x => "LD B, " ++ regText x
  | .stRegs x => "LD [I], " ++ regText x
  | .ldRegs x => "LD " ++ regText x ++ ", [I]"
  | .unknown op => "UNKNOWN 0x" ++ hexDigits 4 op.toNat

/-- The decoder's output: the raw opcode, the instruction and the mnemonic text (R12, R114). -/
structure Operation where
  opcode : Word
  instr : Instr
  mnemonic : String
  deriving DecidableEq, Repr

/-- The Operation of an opcode; it reads nothing but the opcode (R114). -/
def decodeOperation (op : Word) : Operation := ⟨op, decode op, mnemonicText (decode op)⟩

/-- The host's numbering of an opcode-table word: 16-bit words, the first word's bits the lowest, so the one word of an
instruction is the number itself; bits above `nbits` are 0, and a second word belongs to the next instruction (R100). -/
def tableWord (nbits w : Nat) : Word := BitVec.ofNat 16 (w % 2 ^ nbits)

/-- The instruction the decoder reads from a word of the opcode table, through the two bytes the hardware stores. -/
def decodeTableWord (nbits w : Nat) : Option Instr :=
  some (decode (opcodeOf (highByte (tableWord nbits w)) (lowByte (tableWord nbits w))))

end Sys2Proof
end

