-- ==== Sys2Proof/Machine/State.lean ====
section
/-! DEFINITION. The state of the core (spec/10_state.md), the errors that halt it (spec/60_exceptions.md rule R251), the
ways a step of the model can stop, and the state after reset (R48). -/

namespace Sys2Proof.Machine

/-- RAM as the list of the bytes that differ from their reset contents, by rising address (R42, R70).
`Memory.read` gives an unlisted byte its reset contents, `Memory.wf` is the canonical form. -/
abbrev Memory := List Host.Cell

/-- `FB[r][c]`: 32 rows of 64 one-bit pixels (R41). -/
abbrev Framebuffer := Vector (Vector Bool 64) 32

/-- An error of the core with the information it records (R251). `pc` is the address of the instruction being executed,
or the `PC` being fetched. -/
inductive CoreError where
  /-- Code 1: the fetched word decodes to UNKNOWN (R252). -/
  | unknownOpcode (pc : Word) (opcode : Word)
  /-- Code 2: CALL with `SP = 16` (R144). -/
  | stackOverflow (pc : Word) (target : Addr12)
  /-- Code 3: RET with `SP = 0` (R141). -/
  | stackUnderflow (pc : Word)
  /-- Code 4: a byte address above 0xFFF; `addr` is an exact integer (R74). -/
  | addressOutOfRange (pc : Word) (addr : Nat)
  /-- Code 5: SKP or SKNP with `V[x] > 15` (R230). -/
  | keyOutOfRange (pc : Word) (key : Byte)
  deriving DecidableEq, Repr

/-- `STATUS` (R44). -/
inductive Status where
  /-- The core runs. -/
  | running
  /-- The core has halted with an error, until reset (R55, R256). -/
  | halted (e : CoreError)
  deriving DecidableEq, Repr

/-- Everything the spec gives the machine (spec/10_state.md), and the model's own two fields for the random input. -/
structure State where
  /-- `V[0]` to `V[15]` (R30). -/
  v : Vector Byte 16
  /-- `I`, the index register (R36). -/
  i : Word
  /-- `PC` (R33). -/
  pc : Word
  /-- `SP`, the number of stack entries in use; legal values 0 to 16 (R37). -/
  sp : Byte
  /-- `STACK[0]` to `STACK[15]` (R37). -/
  stack : Vector Word 16
  /-- `DT`, the delay timer (R39). -/
  dt : Byte
  /-- `ST`, the sound timer (R39). -/
  st : Byte
  /-- `KEY[0]` to `KEY[15]`, true when pressed (R40). -/
  key : Vector Bool 16
  /-- `FB`, the framebuffer (R41). -/
  fb : Framebuffer
  /-- `RAM` (R42). -/
  ram : Memory
  /-- `STATUS` (R44). -/
  status : Status
  /-- The model's own: the byte the host offers to this step, `step(rand)` (R60); `none` where no host offers one, and
  the byte is then the free value `Config.randByte randDraws`. -/
  randOffer : Option Byte
  /-- The model's own: how many random bytes have been drawn, so that each draw is a fresh free value. -/
  randDraws : Nat
  deriving DecidableEq, Repr

/-- Why the model stops without a next state. The spec's own errors are no faults: they halt the core in a next state
(R256). -/
inductive Fault where
  /-- Raised by CALL and RET when `SP` is above 16, a value the spec calls illegal (R37) and gives no effect; no run
  from reset reaches it. Safe: the model stops where the spec says nothing. Assumption log entry 4. -/
  | illegalStackPointer
  deriving DecidableEq, Repr

/-- Why the model has no meaning for an instruction. -/
inductive Refusal where
  /-- Raised by an arm of `exec` whose instruction has no meaning yet; no arm is left so. Safe. -/
  | notModelled (mnemonic : String)
  deriving DecidableEq, Repr

/-- The outcome of a step of this machine. -/
abbrev StepResult := Host.Outcome State Fault Refusal

/-- The clear framebuffer (R48, R210). -/
def Framebuffer.blank : Framebuffer := Vector.replicate 32 (Vector.replicate 64 false)

/-- The state after reset (R48, R290): RAM at its reset contents (nothing listed), `PC` at `RESET_PC`, all else zero. -/
def State.reset : State where
  v := Vector.replicate 16 0
  i := 0
  pc := Config.resetPc
  sp := 0
  stack := Vector.replicate 16 0
  dt := 0
  st := 0
  key := Vector.replicate 16 false
  fb := Framebuffer.blank
  ram := []
  status := .running
  randOffer := none
  randDraws := 0

end Sys2Proof.Machine
end

