-- ==== Sys2Proof/Machine/Ops.lean ====
section
/-! DEFINITION. The named operations over memory, registers, stack, keypad and program counter, and the one operation
that takes an error. The primitives are those of spec/00_scope.md rule R9. -/

namespace Sys2Proof.Machine

/-! ### Memory (spec/20_memory.md) -/

/-- What a byte that nothing has written reads as: its reset contents, the font at 0x000 to 0x04F and 0 elsewhere
(R47, R48, R72). -/
def Memory.unlisted (a : Nat) : Byte := Config.font.getD a 0

/-- `MemRead(a, 1)` of a byte of RAM (R9, R73). -/
def Memory.read : Memory → Nat → Byte
  | [], a => Memory.unlisted a
  | c :: m, a => if c.1 = a then c.2 else Memory.read m a

/-- The memory without any entry for an address. -/
def Memory.remove : Memory → Nat → Memory
  | [], _ => []
  | c :: m, a => if c.1 = a then Memory.remove m a else c :: Memory.remove m a

/-- An entry put before the first higher address. -/
def Memory.insertCell : Memory → Nat → Byte → Memory
  | [], a, b => [(a, b)]
  | c :: m, a, b => if a < c.1 then (a, b) :: c :: m else c :: Memory.insertCell m a b

/-- `MemWrite(a, 1, b)` (R9, R73). Writing what an unlisted byte reads as removes the entry. -/
def Memory.write (m : Memory) (a : Nat) (b : Byte) : Memory :=
  if b = Memory.unlisted a then m.remove a else (m.remove a).insertCell a b

/-- The canonical form of the entries from address `lo` on: addresses strictly rise and exist, and no entry holds what
an unlisted byte reads as. -/
def Memory.wfFrom : Nat → Memory → Bool
  | _, [] => true
  | lo, c :: m =>
    decide (lo ≤ c.1) && decide (c.1 < Config.ramSize) && c.2 != Memory.unlisted c.1 && Memory.wfFrom (c.1 + 1) m

/-- The canonical form of a memory: equal memories are equal data. -/
def Memory.wf (m : Memory) : Bool := Memory.wfFrom 0 m

/-- `n` bytes from address `a` up. -/
def Memory.readList (m : Memory) : Nat → Nat → List Byte
  | _, 0 => []
  | a, n + 1 => m.read a :: Memory.readList m (a + 1) n

/-- Bytes stored one by one from address `a` up. -/
def Memory.writeList : Memory → Nat → List Byte → Memory
  | m, _, [] => m
  | m, a, b :: bs => Memory.writeList (m.write a b) (a + 1) bs

/-- The first address above 0xFFF among the `n` byte addresses `a, a + 1, ...`, as exact integers in access order
(R74). -/
def firstBadAddr : Nat → Nat → Option Nat
  | _, 0 => none
  | a, n + 1 => if Config.ramSize ≤ a then some a else firstBadAddr (a + 1) n

/-! ### Registers -/

/-- `V[x]` (R9, R30). -/
def State.getV (s : State) (x : RegIx) : Byte := s.v[x]

/-- `V[x] <- b`. -/
def State.setV (s : State) (x : RegIx) (b : Byte) : State := { s with v := s.v.set x b }

/-- `I <- w`. -/
def State.setI (s : State) (w : Word) : State := { s with i := w }

/-- `PC <- w`. -/
def State.setPc (s : State) (w : Word) : State := { s with pc := w }

/-- `DT <- b`. -/
def State.setDt (s : State) (b : Byte) : State := { s with dt := b }

/-- `ST <- b`. -/
def State.setSt (s : State) (b : Byte) : State := { s with st := b }

/-- The framebuffer replaced. -/
def State.setFb (s : State) (f : Framebuffer) : State := { s with fb := f }

/-- RAM replaced. -/
def State.setRam (s : State) (m : Memory) : State := { s with ram := m }

/-- `STATUS <- x`. -/
def State.setStatus (s : State) (x : Status) : State := { s with status := x }

/-- `KEY` replaced: only the host does this (R40). -/
def State.setKey (s : State) (k : Vector Bool 16) : State := { s with key := k }

/-- The host's offer of a random byte replaced (R60). -/
def State.setRandOffer (s : State) (r : Option Byte) : State := { s with randOffer := r }

/-- `STACK[j] <- w` and `SP <- p`. -/
def State.setStack (s : State) (j : Fin 16) (w : Word) (p : Byte) : State :=
  { s with stack := s.stack.set j w, sp := p }

/-- `SP <- p`. -/
def State.setSp (s : State) (p : Byte) : State := { s with sp := p }

/-- `STACK[j]`. -/
def State.stackAt (s : State) (j : Fin 16) : Word := s.stack[j]

/-- `KEY[k]`. -/
def State.keyAt (s : State) (k : Fin 16) : Bool := s.key[k]

/-- `FB[r][c]` of a framebuffer. -/
def Framebuffer.pixel (f : Framebuffer) (r : Fin 32) (c : Fin 64) : Bool := f[r][c]

/-- `FB[r][c] <- p`. -/
def Framebuffer.setPixel (f : Framebuffer) (r : Fin 32) (c : Fin 64) (p : Bool) : Framebuffer :=
  f.set r (f[r].set c p)

/-- `V[k], V[k + 1], ... <- bs`, in that order (R195). -/
def State.setRegsFrom : State → Nat → List Byte → State
  | s, _, [] => s
  | s, k, b :: bs => State.setRegsFrom (s.setV (Fin.ofNat 16 k) b) (k + 1) bs

/-- `advance(k)`: `PC <- trunc_16(PC + k)` (R9, R34). -/
def State.advance (s : State) (k : Word) : State := s.setPc (s.pc + k)

/-- The end of every skip: `advance(4)` if the condition holds, else `advance(2)` (R34). -/
def State.skipIf (s : State) (cond : Bool) : State := if cond then s.advance 4 else s.advance 2

/-- `RandByte()`: the byte the host offers to this step, else the next free value (R9, R176; decision D27). -/
def State.randByte (s : State) : Byte := s.randOffer.getD (Config.randByte s.randDraws)

/-- One more random byte drawn. -/
def State.drawn (s : State) : State := { s with randDraws := s.randDraws + 1 }

/-! ### Errors (spec/60_exceptions.md)

The core has no trap entry and no return from an error: only reset leaves `Halted` (R255, R257). -/

/-- The numeric code of an error (R251; decision D14). -/
def CoreError.code : CoreError → Nat
  | .unknownOpcode _ _ => 1
  | .stackOverflow _ _ => 2
  | .stackUnderflow _ => 3
  | .addressOutOfRange _ _ => 4
  | .keyOutOfRange _ _ => 5

/-- The address of the instruction that raised an error (R251). -/
def CoreError.pc : CoreError → Word
  | .unknownOpcode p _ => p
  | .stackOverflow p _ => p
  | .stackUnderflow p => p
  | .addressOutOfRange p _ => p
  | .keyOutOfRange p _ => p

/-- `raise E(info)`: the step ends with `STATUS <- Halted(E, info)` and nothing else written (R253, R256). -/
def raise (e : CoreError) (s : State) : StepResult := .next (s.setStatus (.halted e))

/-! ### The checks of an instruction, each before its first write (R253, R254) -/

/-- The range check of the `n` byte addresses from `a` up: the first one above 0xFFF is raised, else `k` goes on
(R74). -/
def checkRange (a n : Nat) (s : State) (k : StepResult) : StepResult :=
  match firstBadAddr a n with
  | some bad => raise (.addressOutOfRange s.pc bad) s
  | none => k

/-- `Push(w)`: raises `e` when all 16 entries are in use, else stores and goes on (R38). Above 16, where the spec has no
stack entry and no effect, it is a fault. -/
def push (w : Word) (e : CoreError) (s : State) (k : State → StepResult) : StepResult :=
  if s.sp = 16 then raise e s
  else if h : s.sp.toNat < 16 then k (s.setStack ⟨s.sp.toNat, h⟩ w (s.sp + 1))
  else .fault .illegalStackPointer

/-- `Pop()`: raises `e` when the stack is empty, else goes on with the popped entry, which keeps its value (R38;
decision D12). Above 16, where the spec has no stack entry, it is a fault. -/
def pop (e : CoreError) (s : State) (k : Word → State → StepResult) : StepResult :=
  if s.sp = 0 then raise e s
  else if h : s.sp.toNat - 1 < 16 then k (s.stackAt ⟨s.sp.toNat - 1, h⟩) (s.setSp (s.sp - 1))
  else .fault .illegalStackPointer

/-- The key index check: a value above 15 is raised, else `k` goes on with that key's state (R230; decision D11). -/
def checkKey (b : Byte) (s : State) (k : Bool → StepResult) : StepResult :=
  if h : b.toNat < 16 then k (s.keyAt ⟨b.toNat, h⟩) else raise (.keyOutOfRange s.pc b) s

/-- The key numbers in scan order, lowest first (R233; decision D8). -/
def keyScan : List (Fin 16) := [0, 1, 2, 3, 4, 5, 6, 7, 8, 9, 10, 11, 12, 13, 14, 15]

/-- One scan of the keypad: the lowest pressed key (R233; decision D8). -/
def State.pressedKey (s : State) : Option (Fin 16) := keyScan.find? s.keyAt

/-! ### Instruction fetch (R75, R117) -/

/-- The opcode at `PC`: the byte at the lower address is the high one. -/
def State.fetchWord (s : State) : Word := opcodeOf (s.ram.read s.pc.toNat) (s.ram.read (s.pc.toNat + 1))

/-- The fetch: its range check, then `k` with the opcode. -/
def fetch (s : State) (k : Word → StepResult) : StepResult := checkRange s.pc.toNat 2 s (k s.fetchWord)

/-- An opcode stored at an address, high byte first; a byte past the end of RAM is not stored. -/
def Memory.placeWord (m : Memory) (a : Nat) (op : Word) : Memory :=
  let m1 := if a < Config.ramSize then m.write a (highByte op) else m
  if a + 1 < Config.ramSize then m1.write (a + 1) (lowByte op) else m1

end Sys2Proof.Machine
end

