-- ==== Sys2Proof/Machine/Operands.lean ====
section
/-! DEFINITION. The operand forms (spec/30_encoding.md rule R103; spec/20_memory.md rule R73). Registers `Vx` and `Vy` are
read with `State.getV`, `kk` and `n` are used as they stand. -/

namespace Sys2Proof.Machine

/-- `zext_16(nnn)`: an address immediate as written to `PC` or `I` (R103). -/
def addrImm (nnn : Addr12) : Word := nnn.setWidth 16

/-- `zext_16(b)`: a byte in a 16-bit sum or product (R145, R191, R192). -/
def byteImm (b : Byte) : Word := b.setWidth 16

/-- The number of rows of a `DRW` (R212). -/
def rowCount (n : Nibble) : Nat := n.toNat

/-- How many registers `V0..Vx` names, `Vx` included (R194, R195). -/
def regCount (x : RegIx) : Nat := x.val + 1

/-- The base of the one data addressing mode, `I` plus a constant offset, as an exact integer (R73, R74). -/
def State.base (s : State) : Nat := s.i.toNat

/-- The values of `V0..Vx`, in order (R194). -/
def State.regsUpTo (s : State) (x : RegIx) : List Byte := s.v.toList.take (regCount x)

/-- The BCD digits of a byte: hundreds, tens, ones (R193). -/
def bcdDigits (b : Byte) : List Byte :=
  [BitVec.ofNat 8 (b.toNat / 100), BitVec.ofNat 8 (b.toNat / 10 % 10), BitVec.ofNat 8 (b.toNat % 10)]

end Sys2Proof.Machine
end

