-- ==== Sys2Proof/Machine/Flags.lean ====
section
/-! DEFINITION. The flag computations and the one way a flag is written: VF is `V[15]`, written after the result
(spec/10_state.md rule R32; spec/41_alu.md rule R160). -/

namespace Sys2Proof.Machine

/-- The number of VF (R32). -/
def vf : RegIx := 15

/-- A condition as a flag byte, 1 or 0. -/
def flagByte (c : Bool) : Byte := if c then 1 else 0

/-- The carry of `ADD Vx, Vy`: the exact sum exceeds 255 (R167). -/
def carryFlag (a b : Byte) : Byte := flagByte (decide (255 < a.toNat + b.toNat))

/-- The no-borrow flag of `a - b`: strictly greater (R168, R170). -/
def noBorrowFlag (a b : Byte) : Byte := flagByte (decide (b.toNat < a.toNat))

/-- The bit `SHR` shifts out: bit 0 (R169). -/
def shrFlag (a : Byte) : Byte := a &&& 1

/-- The bit `SHL` shifts out: bit 7 (R171). -/
def shlFlag (a : Byte) : Byte := a >>> 7

/-- `COLLISION_RULE = transition`: a sprite bit 1 meets a pixel that is 1 (R213; decision D6). -/
def collides (pixel bit : Bool) : Bool := pixel && bit

/-- `VF <- f`. -/
def State.setFlag (s : State) (f : Byte) : State := s.setV vf f

/-- `V[x] <- r`, then `VF <- f`: with x = F the flag stays (R160; decision D15). -/
def State.setResultFlag (s : State) (x : RegIx) (r f : Byte) : State := (s.setV x r).setFlag f

end Sys2Proof.Machine
end

