-- ==== Sys2Proof/Machine/Alu.lean ====
section
/-! DEFINITION. Register loads, ALU and random (spec/41_alu.md). Sources are read before anything is written, then `V[x]`,
then VF (R160); each instruction ends with `advance(2)` and none raises an error. -/

namespace Sys2Proof.Machine

/-- LD Vx, byte (R161). -/
def execLdByte (x : RegIx) (kk : Byte) (s : State) : StepResult := .next ((s.setV x kk).advance 2)

/-- ADD Vx, byte (R162): modulo 256, no flag. -/
def execAddByte (x : RegIx) (kk : Byte) (s : State) : StepResult := .next ((s.setV x (s.getV x + kk)).advance 2)

/-- LD Vx, Vy (R163). -/
def execLdReg (x y : RegIx) (s : State) : StepResult := .next ((s.setV x (s.getV y)).advance 2)

/-- OR Vx, Vy (R164): no flag (decision D21). -/
def execOrReg (x y : RegIx) (s : State) : StepResult := .next ((s.setV x (s.getV x ||| s.getV y)).advance 2)

/-- AND Vx, Vy (R165): no flag (decision D21). -/
def execAndReg (x y : RegIx) (s : State) : StepResult := .next ((s.setV x (s.getV x &&& s.getV y)).advance 2)

/-- XOR Vx, Vy (R166): no flag (decision D21). -/
def execXorReg (x y : RegIx) (s : State) : StepResult := .next ((s.setV x (s.getV x ^^^ s.getV y)).advance 2)

/-- The result of `ADD Vx, Vy`: the exact sum modulo `ADD_MODULUS` (R167; decision D5). -/
def addModResult (a b : Byte) : Byte := BitVec.ofNat 8 ((a.toNat + b.toNat) % Config.addModulus)

/-- ADD Vx, Vy (R167). -/
def execAddReg (x y : RegIx) (s : State) : StepResult :=
  .next ((s.setResultFlag x (addModResult (s.getV x) (s.getV y)) (carryFlag (s.getV x) (s.getV y))).advance 2)

/-- SUB Vx, Vy (R168). -/
def execSubReg (x y : RegIx) (s : State) : StepResult :=
  .next ((s.setResultFlag x (s.getV x - s.getV y) (noBorrowFlag (s.getV x) (s.getV y))).advance 2)

/-- SHR Vx (R169); `Vy` is not read. -/
def execShr (x _y : RegIx) (s : State) : StepResult :=
  .next ((s.setResultFlag x (s.getV x >>> 1) (shrFlag (s.getV x))).advance 2)

/-- SUBN Vx, Vy (R170). -/
def execSubnReg (x y : RegIx) (s : State) : StepResult :=
  .next ((s.setResultFlag x (s.getV y - s.getV x) (noBorrowFlag (s.getV y) (s.getV x))).advance 2)

/-- SHL Vx (R171); `Vy` is not read. -/
def execShl (x _y : RegIx) (s : State) : StepResult :=
  .next ((s.setResultFlag x (s.getV x <<< 1) (shlFlag (s.getV x))).advance 2)

/-- RND Vx, byte (R176): the step's random byte, masked. -/
def execRnd (x : RegIx) (kk : Byte) (s : State) : StepResult :=
  .next (((s.setV x (s.randByte &&& kk)).drawn).advance 2)

end Sys2Proof.Machine
end

