-- ==== Sys2Proof/Machine/Display.lean ====
section
/-! DEFINITION. The framebuffer, CLS and DRW (spec/43_display.md). -/

namespace Sys2Proof.Machine

/-- CLS (R210). -/
def execCls (s : State) : StepResult := .next ((s.setFb Framebuffer.blank).advance 2)

/-- Bit `b` of a sprite row from the left: bit 7 is the leftmost pixel (R211; decision D18). -/
def spriteBit (row : Byte) (b : Nat) : Bool := row.getLsbD (7 - b)

/-- One pixel of the blit: a sprite bit 1 flips the pixel and collides if it was 1 (R211, R213). -/
def blitPixel (acc : Framebuffer × Bool) (r : Fin 32) (c : Fin 64) (bit : Bool) : Framebuffer × Bool :=
  if bit then (acc.1.setPixel r c (!acc.1.pixel r c), acc.2 || collides (acc.1.pixel r c) bit) else acc

/-- One sprite row: its 8 pixels, from the left, at columns modulo 64 (R211). -/
def blitRow (x y : Nat) (row : Byte) (acc : Framebuffer × Bool) : Framebuffer × Bool :=
  [0, 1, 2, 3, 4, 5, 6, 7].foldl
    (fun acc b => blitPixel acc (Fin.ofNat 32 y) (Fin.ofNat 64 (x + b)) (spriteBit row b)) acc

/-- The sprite rows from row `y` down, at rows modulo 32 (R211). -/
def blitRows (x : Nat) : Nat → List Byte → Framebuffer × Bool → Framebuffer × Bool
  | _, [], acc => acc
  | y, row :: rows, acc => blitRows x (y + 1) rows (blitRow x y row acc)

/-- The blit primitive `display_sprite(x, y, bytes)`: the new framebuffer and the collision (R211). -/
def displaySprite (x y : Byte) (bytes : List Byte) (f : Framebuffer) : Framebuffer × Bool :=
  blitRows x.toNat y.toNat bytes (f, false)

/-- DRW Vx, Vy, nibble (R212): the coordinates are read before VF is written, and no collision writes VF = 0
(decisions D7, D19). -/
def execDrw (x y : RegIx) (n : Nibble) (s : State) : StepResult :=
  checkRange s.base (rowCount n) s
    (let blit := displaySprite (s.getV x) (s.getV y) (s.ram.readList s.base (rowCount n)) s.fb
     .next (((s.setFb blit.1).setFlag (flagByte blit.2)).advance 2))

/-- `is_clear()`: every pixel is 0. A query of the framebuffer, no instruction (R214). -/
def Framebuffer.isClear (f : Framebuffer) : Bool := f.toList.all fun row => row.toList.all fun p => !p

end Sys2Proof.Machine
end

