-- ==== Sys2Proof/Machine/Flow.lean ====
section
/-! DEFINITION. Control flow: return, jumps, call, skips (spec/40_flow.md). `PC` is the address of the instruction being
executed (R33). -/

namespace Sys2Proof.Machine

/-- RET (R141): the popped value plus 2. -/
def execRet (s : State) : StepResult :=
  pop (.stackUnderflow s.pc) s fun t s' => .next (s'.setPc (t + 2))

/-- SYS addr (R142): a jump in this core. -/
def execSys (nnn : Addr12) (s : State) : StepResult := .next (s.setPc (addrImm nnn))

/-- JMP addr (R143). -/
def execJmp (nnn : Addr12) (s : State) : StepResult := .next (s.setPc (addrImm nnn))

/-- CALL addr (R144): pushes the address of the CALL itself. -/
def execCall (nnn : Addr12) (s : State) : StepResult :=
  push s.pc (.stackOverflow s.pc nnn) s fun s' => .next (s'.setPc (addrImm nnn))

/-- JP V0, addr (R145): the sum is not masked to 12 bits (decision D35). -/
def execJpV0 (nnn : Addr12) (s : State) : StepResult := .next (s.setPc (addrImm nnn + byteImm (s.getV 0)))

/-- SE Vx, byte (R146). -/
def execSeByte (x : RegIx) (kk : Byte) (s : State) : StepResult := .next (s.skipIf (s.getV x == kk))

/-- SNE Vx, byte (R147). -/
def execSneByte (x : RegIx) (kk : Byte) (s : State) : StepResult := .next (s.skipIf (s.getV x != kk))

/-- SE Vx, Vy (R148); the low nibble is ignored (decision D17). -/
def execSeReg (x y : RegIx) (_n : Nibble) (s : State) : StepResult := .next (s.skipIf (s.getV x == s.getV y))

/-- SNE Vx, Vy (R149); the low nibble is ignored (decision D17). -/
def execSneReg (x y : RegIx) (_n : Nibble) (s : State) : StepResult := .next (s.skipIf (s.getV x != s.getV y))

end Sys2Proof.Machine
end

