-- ==== Sys2Proof/Machine/IndexMemory.lean ====
section
/-! DEFINITION. Index register, font, BCD, register store and load (spec/42_index_memory.md). Every address is checked
before any write (R74), and no access changes `I` (decision D20). -/

namespace Sys2Proof.Machine

/-- LD I, addr (R190). -/
def execLdI (nnn : Addr12) (s : State) : StepResult := .next ((s.setI (addrImm nnn)).advance 2)

/-- ADD I, Vx (R191): 16 bits, not masked to 12 (decision D9). -/
def execAddI (x : RegIx) (s : State) : StepResult := .next ((s.setI (s.i + byteImm (s.getV x))).advance 2)

/-- LD F, Vx (R192): the glyph's address, `Vx` not masked. -/
def execLdF (x : RegIx) (s : State) : StepResult :=
  .next ((s.setI (byteImm (s.getV x) * BitVec.ofNat 16 Config.fontGlyphBytes)).advance 2)

/-- Bytes stored at `I, I + 1, ...` after the range check of all of them; the end of LD B and of LD [I] (R74). -/
def storeAtI (bs : List Byte) (s : State) : StepResult :=
  checkRange s.base bs.length s (.next ((s.setRam (s.ram.writeList s.base bs)).advance 2))

/-- LD B, Vx (R193). -/
def execLdB (x : RegIx) (s : State) : StepResult := storeAtI (bcdDigits (s.getV x)) s

/-- LD [I], Vx (R194). -/
def execStRegs (x : RegIx) (s : State) : StepResult := storeAtI (s.regsUpTo x) s

/-- LD Vx, [I] (R195). -/
def execLdRegs (x : RegIx) (s : State) : StepResult :=
  checkRange s.base (regCount x) s
    (.next ((s.setRegsFrom 0 (s.ram.readList s.base (regCount x))).advance 2))

end Sys2Proof.Machine
end

