-- ==== Sys2Proof/Machine/KeysTimers.lean ====
section
/-! DEFINITION. Keypad and timer instructions (spec/44_keys_timers.md). -/

namespace Sys2Proof.Machine

/-- SKP Vx (R231). -/
def execSkp (x : RegIx) (s : State) : StepResult := checkKey (s.getV x) s fun down => .next (s.skipIf down)

/-- SKNP Vx (R232). -/
def execSknp (x : RegIx) (s : State) : StepResult := checkKey (s.getV x) s fun down => .next (s.skipIf (!down))

/-- LD Vx, K (R233): the lowest pressed key, else a stall with `PC` unchanged. -/
def execLdVxK (x : RegIx) (s : State) : StepResult :=
  match s.pressedKey with
  | some k => .next ((s.setV x (BitVec.ofNat 8 k.val)).advance 2)
  | none => .next s

/-- LD Vx, DT (R234). -/
def execLdVxDT (x : RegIx) (s : State) : StepResult := .next ((s.setV x s.dt).advance 2)

/-- LD DT, Vx (R235). -/
def execLdDTVx (x : RegIx) (s : State) : StepResult := .next ((s.setDt (s.getV x)).advance 2)

/-- LD ST, Vx (R236). -/
def execLdSTVx (x : RegIx) (s : State) : StepResult := .next ((s.setSt (s.getV x)).advance 2)

/-- The UNKNOWN Operation: raises `UnknownOpcode` and writes nothing else (R112, R252). -/
def execUnknown (op : Word) (s : State) : StepResult := raise (.unknownOpcode s.pc op) s

end Sys2Proof.Machine
end

