-- ==== Sys2Proof/Machine/Step.lean ====
section
/-! DEFINITION. The instruction cycle (spec/30_encoding.md rule R115) and the host's way of placing an instruction where
the next step fetches. -/

namespace Sys2Proof.Machine

/-- `step`: a halted core changes nothing (R55); a running one fetches, decodes and executes one instruction (R115). -/
def step (s : State) : Host.Outcome State Fault Refusal :=
  match s.status with
  | .halted _ => .next s
  | .running => fetch s fun op => exec (decode op) s

/-- The state with an opcode-table word stored at `PC`, high byte first (R75), and the core running, which the fetch
needs. It stands for the host's `load` (R292); assumption log entry 9. -/
def State.withFetchWord (s : State) (nbits w : Nat) : State :=
  (s.setRam (s.ram.placeWord s.pc.toNat (tableWord nbits w))).setStatus .running

end Sys2Proof.Machine
end

