-- ==== Sys2Proof/Machine/Transactions.lean ====
section
/-! DEFINITION. The block's other transactions, each atomic (spec/10_state.md rules R60 to R63): reset, load, set_keys,
step with its random byte, step_batch, tick, the frame, snapshot and the `sound_on` output. None happens inside a step:
the host issues them between batches (R80, R301). -/

namespace Sys2Proof.Machine

/-- `reset()`: every piece of state to its value in R48, from any state (R290). The model's own count of drawn random
bytes goes on, so that draws after a reset are fresh. -/
def reset (s : State) : State := { State.reset with randDraws := s.randDraws }

/-- Why `load` rejects a ROM: a result of the transaction, no error of the core (R292). -/
inductive LoadError where
  /-- The ROM is longer than `MAX_ROM`. -/
  | tooLarge
  deriving DecidableEq, Repr

/-- `load(rom)`: the ROM bytes to `RAM[0x200..]`, rejected before any write if too long; nothing else changes (R292). -/
def load (rom : List Byte) (s : State) : Except LoadError State :=
  if Config.maxRom < rom.length then .error .tooLarge
  else .ok (s.setRam (s.ram.writeList Config.progBase rom))

/-- `set_keys(keys)`: `KEY[k] <- keys[k]` for every k (R60). -/
def setKeys (keys : Vector Bool 16) (s : State) : State := s.setKey keys

/-- A timer's decrement towards 0, never below it (R39, R270). -/
def countDown (b : Byte) : Byte := if b = 0 then 0 else b - 1

/-- `tick()`: one timer decrement; a halted core ignores it (R270; decision D30). -/
def tick (s : State) : State :=
  match s.status with
  | .halted _ => s
  | .running => (s.setDt (countDown s.dt)).setSt (countDown s.st)

/-- `step(rand)`: a step to which the host offers a random byte (R60, R115); with `none` the byte is a free value. -/
def stepWith (rand : Option Byte) (s : State) : StepResult :=
  match step (s.setRandOffer rand) with
  | .next t => .next (t.setRandOffer none)
  | .fault r => .fault r
  | .refused r => .refused r

/-- `step_batch(n, rands)`: up to `n` steps, each offered the next of `rands` (a free value when none is left); it stops
after the first step that returns `Halted` (R61). -/
def stepBatch : Nat → List Byte → State → StepResult
  | 0, _, s => .next s
  | n + 1, rands, s =>
    match stepWith rands.head? s with
    | .next t => if t.status = .running then stepBatch n rands.tail t else .next t
    | .fault r => .fault r
    | .refused r => .refused r

/-- A frame: `set_keys`, a batch of `STEPS_PER_FRAME` steps, then one `tick` (R61, R271; decision D22). -/
def frame (keys : Vector Bool 16) (rands : List Byte) (s : State) : StepResult :=
  match stepBatch Config.stepsPerFrame rands (setKeys keys s) with
  | .next t => .next (tick t)
  | .fault r => .fault r
  | .refused r => .refused r

/-- What `snapshot()` returns (R62). -/
structure Snapshot where
  fb : Framebuffer
  v : Vector Byte 16
  i : Word
  pc : Word
  sp : Byte
  stack : Vector Word 16
  dt : Byte
  st : Byte
  status : Status
  deriving DecidableEq, Repr

/-- `snapshot()`: it writes nothing (R62). It is also the content of the diagnostic of an unknown opcode (R252). -/
def snapshot (s : State) : Snapshot :=
  ⟨s.fb, s.v, s.i, s.pc, s.sp, s.stack, s.dt, s.st, s.status⟩

/-- The output `sound_on = (ST != 0)` (R63; decision D28). -/
def soundOn (s : State) : Bool := s.st != 0

end Sys2Proof.Machine
end

