-- ==== Sys2Proof/Safety.lean ====
section
/-! DEFINITION. The terms the statements are written in: what an instruction leaves unchanged, when a step halts, which
pixels a sprite covers, and the invariant of every run from reset. -/

namespace Sys2Proof.Machine

/-! ### Frames -/

/-- The parts of the state an instruction could write. -/
inductive Part where
  | v | i | pc | sp | stack | dt | st | key | fb | ram | status | randOffer | randDraws
  deriving DecidableEq, Repr

/-- Every part of the state but the listed ones is unchanged: registers and stack entries one by one, memory and
framebuffer as their reads give them. -/
structure Kept (written : List Part) (s t : State) : Prop where
  v : .v ∉ written → ∀ j, t.getV j = s.getV j
  i : .i ∉ written → t.i = s.i
  pc : .pc ∉ written → t.pc = s.pc
  sp : .sp ∉ written → t.sp = s.sp
  stack : .stack ∉ written → ∀ j, t.stackAt j = s.stackAt j
  dt : .dt ∉ written → t.dt = s.dt
  st : .st ∉ written → t.st = s.st
  key : .key ∉ written → ∀ k, t.keyAt k = s.keyAt k
  fb : .fb ∉ written → ∀ r c, t.fb.pixel r c = s.fb.pixel r c
  ram : .ram ∉ written → ∀ a, t.ram.read a = s.ram.read a
  status : .status ∉ written → t.status = s.status
  randOffer : .randOffer ∉ written → t.randOffer = s.randOffer
  randDraws : .randDraws ∉ written → t.randDraws = s.randDraws

/-- Every general register but the listed ones is unchanged. -/
def RegsKept (dst : List RegIx) (s t : State) : Prop := ∀ j, j ∉ dst → t.getV j = s.getV j

/-- Every byte of memory outside the `n` bytes from address `a` up is unchanged. -/
def BytesKept (a n : Nat) (s t : State) : Prop := ∀ b, b < a ∨ a + n ≤ b → t.ram.read b = s.ram.read b

/-! ### Who writes what -/

/-- `i` is a writer of `V[j]` (R31), the flag writers' VF and DRW's VF included (R32, R212). -/
def RegWriter (i : Instr) (j : RegIx) : Prop :=
  (∃ kk, i = .ldByte j kk ∨ i = .addByte j kk ∨ i = .rnd j kk) ∨
  (∃ y, i = .ldReg j y ∨ i = .orReg j y ∨ i = .andReg j y ∨ i = .xorReg j y ∨ i = .addReg j y ∨ i = .subReg j y ∨
    i = .shr j y ∨ i = .subnReg j y ∨ i = .shl j y) ∨
  i = .ldVxDT j ∨ i = .ldVxK j ∨ (∃ x, j ≤ x ∧ i = .ldRegs x) ∨
  (j = 15 ∧ ((∃ x y, i = .addReg x y ∨ i = .subReg x y ∨ i = .shr x y ∨ i = .subnReg x y ∨ i = .shl x y) ∨
    ∃ x y n, i = .drw x y n))

/-- `i` is a conditional skip (R34). -/
def IsSkip (i : Instr) : Prop :=
  (∃ x kk, i = .seByte x kk ∨ i = .sneByte x kk) ∨ (∃ x y n, i = .seReg x y n ∨ i = .sneReg x y n) ∨
    ∃ x, i = .skp x ∨ i = .sknp x

/-- `i` jumps (R34). -/
def IsJump (i : Instr) : Prop :=
  i = .ret ∨ ∃ nnn, i = .sys nnn ∨ i = .jmp nnn ∨ i = .call nnn ∨ i = .jpV0 nnn

/-- `i` has an error among its own (R251). -/
def CanRaise (i : Instr) : Prop :=
  (∃ op, i = .unknown op) ∨ (∃ nnn, i = .call nnn) ∨ i = .ret ∨ (∃ x y n, i = .drw x y n) ∨
    ∃ x, i = .ldB x ∨ i = .stRegs x ∨ i = .ldRegs x ∨ i = .skp x ∨ i = .sknp x

/-! ### Fetch, halt and errors -/

/-- The state halted with an error and nothing else changed: the whole effect of `raise` (R256). -/
def State.haltedWith (s : State) (e : CoreError) : State := { s with status := .halted e }

/-- The word `op` lies at `PC`, high byte first, and both its bytes exist (R75, R117). -/
def OpcodeAt (s : State) (op : Word) : Prop :=
  s.pc.toNat + 1 ≤ 0xFFF ∧
    op.toNat = (s.ram.read s.pc.toNat).toNat * 256 + (s.ram.read (s.pc.toNat + 1)).toNat

/-- Some byte address of `a, ..., a + n - 1` is above 0xFFF, and `bad` is the first such address (R74). -/
def FirstBad (a n bad : Nat) : Prop := 0 < n ∧ 0xFFF < a + n - 1 ∧ bad = max a 0x1000

/-- The number of bytes an instruction accesses from `I` up (the table of R73). -/
def accessCount : Instr → Nat
  | .drw _ _ n => n.toNat
  | .ldB _ => 3
  | .stRegs x => x.val + 1
  | .ldRegs x => x.val + 1
  | _ => 0

/-- The causes of an error of the instruction `i` itself (the table of R251). -/
def InstrError (i : Instr) (s : State) : CoreError → Prop
  | .unknownOpcode p op => p = s.pc ∧ i = .unknown op
  | .stackOverflow p target => p = s.pc ∧ i = .call target ∧ s.sp.toNat = 16
  | .stackUnderflow p => p = s.pc ∧ i = .ret ∧ s.sp.toNat = 0
  | .addressOutOfRange p bad => p = s.pc ∧ FirstBad s.i.toNat (accessCount i) bad
  | .keyOutOfRange p key => p = s.pc ∧ 15 < key.toNat ∧ ∃ x, (i = .skp x ∨ i = .sknp x) ∧ key = s.getV x

/-- The causes of an error of a step, in the order of R254: the fetch range check, then those of the instruction that
lies at `PC`. -/
def StepError (s : State) (e : CoreError) : Prop :=
  (∃ bad, FirstBad s.pc.toNat 2 bad ∧ e = .addressOutOfRange s.pc bad) ∨
    (∃ op, OpcodeAt s op ∧ InstrError (decode op) s e)

/-! ### The patterns of the opcode map, as numbers (R101, R110) -/

/-- `fnnn`: the word of family `f` with the address `nnn`. -/
def patNNN (f : Nat) (nnn : Addr12) : Word := BitVec.ofNat 16 (f * 0x1000 + nnn.toNat)

/-- `fxkk`: the word of family `f` with the register `x` and the byte `kk`. -/
def patXKK (f : Nat) (x : RegIx) (kk : Byte) : Word := BitVec.ofNat 16 (f * 0x1000 + x.val * 0x100 + kk.toNat)

/-- `fxyn`: the word of family `f` with the registers `x` and `y` and the nibble `n`. -/
def patXYN (f : Nat) (x y : RegIx) (n : Nibble) : Word :=
  BitVec.ofNat 16 (f * 0x1000 + x.val * 0x100 + y.val * 0x10 + n.toNat)

/-! ### Sprites -/

/-- A sprite of the rows `bytes` at (x, y) has a 1 bit on pixel (r, c): row `k` of it wraps to row `r` and bit `b` from
the left wraps to column `c` (R211). -/
def SpriteCovers (bytes : List Byte) (x y : Byte) (r : Fin 32) (c : Fin 64) : Prop :=
  ∃ k b, b < 8 ∧ ∃ h : k < bytes.length,
    (y.toNat + k) % 32 = r.val ∧ (x.toNat + b) % 64 = c.val ∧ (bytes[k].toNat >>> (7 - b)) % 2 = 1

/-! ### The invariant of a run -/

/-- What every step keeps and reset gives: memory is in its canonical form; `SP` is legal (R37); a return address is an
address CALL could have been fetched from, and `PC` cannot come near its 16-bit wrap (entry U20 of spec/93); a halted
core's `PC` is the address its error records (R253). -/
structure State.Inv (s : State) : Prop where
  ram : s.ram.wf = true
  sp : s.sp.toNat ≤ 16
  stack : ∀ j, (s.stackAt j).toNat ≤ 0xFFE
  pc : s.pc.toNat ≤ 0x10FE
  halted : ∀ e, s.status = .halted e → e.pc = s.pc

end Sys2Proof.Machine
end

