-- ==== Sys2Proof/Certificates/Slice0/Obligations.lean ====
section
/-! DEFINITION. The statements for the provers. Each instruction's statement says that its encoding decodes to it
(R110, which marks most opcode values as general knowledge), that `exec` answers a next state, what that state holds and
what it leaves unchanged (`Kept`, Safety.lean). Where a clause rests on a decision of spec/92, which is the spec's own
choice, or on the model's choice, the docstring names it and the entry's basis is `derived`. -/

open Sys2Proof Sys2Proof.Machine

/-! ### Encoding -/

/-- Decode and encode agree: decoding the word of a well-formed instruction gives it back with every operand (R101,
R110, R111). -/
def Obligations.DecodeOfEncodeIsIdentity : Prop := ∀ i : Instr, i.wf = true → decode (encode i) = i

/-- The decoded Operation keeps the raw opcode, for every word (R114); moreover its instruction is well-formed and
encodes to that very opcode. This last is no clause of R114 but the model's choice: the syntax keeps the fields an
instruction ignores (assumption log entry 11) and UNKNOWN carries its word (assumption log entry 10). -/
def Obligations.OperationKeepsRawOpcode : Prop :=
  ∀ op : Word, (decodeOperation op).opcode = op ∧ (decodeOperation op).instr = decode op ∧
    (decode op).wf = true ∧ encode (decode op) = op

/-- R112 (marked derived in the spec): the words that decode to UNKNOWN are exactly those of its three lists. -/
def Obligations.UnknownWordsAreExactlyListed : Prop :=
  ∀ op : Word, (∃ w, decode op = .unknown w) ↔
    (op.toNat / 0x1000 = 0x8 ∧ op.toNat % 16 ∈ [0x8, 0x9, 0xA, 0xB, 0xC, 0xD, 0xF]) ∨
    (op.toNat / 0x1000 = 0xE ∧ op.toNat % 256 ∉ [0x9E, 0xA1]) ∨
    (op.toNat / 0x1000 = 0xF ∧ op.toNat % 256 ∉ [0x07, 0x0A, 0x15, 0x18, 0x1E, 0x29, 0x33, 0x55, 0x65])

/-- Words written out from the spec's patterns and examples, at least one of each of the sixteen families `op[15:12]`,
decode to what they stand for (R101, R110; W5, W6, V1 to V110; 0x01E0 and 0x5121 by decisions D16, D17). -/
def Obligations.WrittenOutWordsDecode : Prop :=
  decode 0x31AA = .seByte 1 0xAA ∧ decode 0x00E0 = .cls ∧ decode 0x01E0 = .sys 0x1E0 ∧ decode 0x2ABC = .call 0xABC ∧
    decode 0x5121 = .seReg 1 2 1 ∧ decode 0x8F14 = .addReg 0xF 1 ∧ decode 0x8008 = .unknown 0x8008 ∧
    decode 0xA123 = .ldI 0x123 ∧ decode 0xC30F = .rnd 3 0x0F ∧ decode 0xDF05 = .drw 0xF 0 5 ∧
    decode 0xE5A1 = .sknp 5 ∧ decode 0xF265 = .ldRegs 2 ∧ decode 0x1ABC = .jmp 0xABC ∧
    decode 0x4206 = .sneByte 2 0x06 ∧ decode 0x6A9C = .ldByte 0xA 0x9C ∧ decode 0x7101 = .addByte 1 0x01 ∧
    decode 0x9340 = .sneReg 3 4 0 ∧ decode 0xB300 = .jpV0 0x300

/-! ### The step -/

/-- In a running core, when the two bytes at `PC` are the high and low byte of a word that decodes to `i`, the step is
`exec i` at that state: nothing is added around it, `PC` included (R33, R75, R115; decision D13 on the halt). -/
def Obligations.StepRunsDecodedInstruction : Prop :=
  ∀ (s : State) (op : Word) (i : Instr), s.status = .running → OpcodeAt s op → decode op = i → step s = exec i s

/-- A fetch at a `PC` with `PC + 1 > 0xFFF` raises AddressOutOfRange with the first address above 0xFFF and changes
nothing else (R117; decisions D10, D13). -/
def Obligations.FetchPastEndOfRamHalts : Prop :=
  ∀ s : State, s.status = .running → 0xFFF < s.pc.toNat + 1 →
    step s = .next (s.haltedWith (.addressOutOfRange s.pc (if 0xFFF < s.pc.toNat then s.pc.toNat else s.pc.toNat + 1)))

/-- A halted core ignores step, step_batch and tick, and reset makes it run again (R55; decisions D13, D30). -/
def Obligations.HaltedCoreIsFrozenUntilReset : Prop :=
  ∀ (s : State) (e : CoreError), s.status = .halted e →
    step s = .next s ∧ tick s = s ∧ (s.randOffer = none → ∀ n rands, stepBatch n rands s = .next s) ∧
      (reset s).status = .running

/-- Every step keeps the invariant of a run: legal `SP`, all 16 stack entries, stale ones included, at most 0xFFE, `PC`
at most 0x10FE, a halted `PC` that is the faulting one (R37, R253; entry U20 of spec/93; decisions D9, D12, D13, D31,
D35), and memory in its canonical form, which is the model's own choice (assumption log entry 7). -/
def Obligations.StepKeepsRunInvariant : Prop := ∀ s t : State, s.Inv → step s = .next t → t.Inv

/-- The state after reset meets the invariant of a run, the model's canonical form of memory (assumption log entry 7)
included. -/
def Obligations.ResetMeetsRunInvariant : Prop := State.reset.Inv

/-- With a legal `SP` every step, of whatever word, answers a next state: no instruction is refused and none faults
(R37, R115, R251; an error is a next state by decision D13 and assumption log entry 1). -/
def Obligations.EveryStepAnswersNextState : Prop := ∀ s : State, s.sp.toNat ≤ 16 → ∃ t, step s = .next t

/-- Errors are precise: a step that leaves `Running` has changed nothing but `STATUS`, and the error records the address
of the instruction (R253, R256; decision D13). -/
def Obligations.ErrorsArePrecise : Prop :=
  ∀ s t : State, s.status = .running → step s = .next t → t.status ≠ .running →
    ∃ e : CoreError, e.pc = s.pc ∧ t = s.haltedWith e

/-- A running core's step halts with an error exactly when that error's cause of R251 holds, the fetch range check first
(R251, R254; decisions D10, D11). -/
def Obligations.StepHaltsExactlyOnListedCauses : Prop :=
  ∀ (s t : State) (e : CoreError), s.status = .running → step s = .next t →
    (t.status = .halted e ↔ StepError s e)

/-- The model's own choice where the spec gives no effect (assumption log entry 4): CALL and RET at an illegal `SP`, above
16, stop with the named fault. -/
def Obligations.IllegalStackPointerFaults : Prop :=
  ∀ (s : State) (nnn : Addr12), 16 < s.sp.toNat →
    exec (.call nnn) s = .fault .illegalStackPointer ∧ exec .ret s = .fault .illegalStackPointer

/-! ### Rules about every instruction -/

/-- Who writes what (R31, R34, R36 to R41, R71, R73): no instruction writes the keypad; only CLS and DRW write the
framebuffer, only LD B and LD [I] write RAM, only CALL writes the stack (decision D12: a pop does not) and only CALL and
RET move `SP`; `V`, `DT`, `ST` and `I` have the named writers (decisions D20, D21); `PC` goes to `PC + 2` (decision D31)
but for the skips, the jumps, a stalled LD Vx, K and an error, and only an instruction with an error of its own writes
STATUS (decisions D10, D11, D13); only RND draws a random byte, counted by a field of the model's own (assumption log
entry 2). -/
def Obligations.OnlyNamedInstructionsWriteEachPart : Prop :=
  ∀ (i : Instr) (s t : State), exec i s = .next t →
    t.key = s.key ∧ t.randOffer = s.randOffer ∧
    (∀ j, t.getV j ≠ s.getV j → RegWriter i j) ∧
    (t.pc = s.pc + 2 ∨ (t.pc = s.pc + 4 ∧ IsSkip i) ∨ IsJump i ∨ (t = s ∧ ∃ x, i = .ldVxK x) ∨
      ∃ e, t = s.haltedWith e) ∧
    (t.status ≠ s.status → CanRaise i) ∧
    (t.fb ≠ s.fb → i = .cls ∨ ∃ x y n, i = .drw x y n) ∧
    (t.ram ≠ s.ram → ∃ x, i = .ldB x ∨ i = .stRegs x) ∧
    (t.stack ≠ s.stack → ∃ nnn, i = .call nnn) ∧
    (t.sp ≠ s.sp → i = .ret ∨ ∃ nnn, i = .call nnn) ∧
    (t.dt ≠ s.dt → ∃ x, i = .ldDTVx x) ∧
    (t.st ≠ s.st → ∃ x, i = .ldSTVx x) ∧
    (t.i ≠ s.i → (∃ nnn, i = .ldI nnn) ∨ ∃ x, i = .addI x ∨ i = .ldF x) ∧
    (t.randDraws ≠ s.randDraws → ∃ x kk, i = .rnd x kk)

/-- VF changes only by a flag-writing instruction or by one that names VF as its destination (R31, R32, R303;
decisions D15, D21). -/
def Obligations.VfChangesOnlyAsFlagOrDestination : Prop :=
  ∀ (i : Instr) (s t : State), exec i s = .next t → t.getV 15 ≠ s.getV 15 →
    (∃ x y, i = .addReg x y ∨ i = .subReg x y ∨ i = .subnReg x y ∨ i = .shr x y ∨ i = .shl x y) ∨
    (∃ x y n, i = .drw x y n) ∨
    (∃ kk, i = .ldByte 15 kk ∨ i = .addByte 15 kk ∨ i = .rnd 15 kk) ∨
    (∃ y, i = .ldReg 15 y ∨ i = .orReg 15 y ∨ i = .andReg 15 y ∨ i = .xorReg 15 y) ∨
    i = .ldVxDT 15 ∨ i = .ldVxK 15 ∨ i = .ldRegs 15

/-- Every instruction but RND ignores the random input (R46, R60): with another offer and another count of draws it
does the same to the rest of the state. The two fields are the model's own (decision D27; assumption log entry 2). -/
def Obligations.OnlyRndDependsOnRandomInput : Prop :=
  ∀ (i : Instr) (s t : State) (r : Option Byte) (d : Nat), (∀ x kk, i ≠ .rnd x kk) → exec i s = .next t →
    exec i { s with randOffer := r, randDraws := d } = .next { t with randOffer := r, randDraws := d }

/-- No instruction reads ST (R39): with another sound timer every instruction does the same to the rest of the
state. -/
def Obligations.NoInstructionReadsSoundTimer : Prop :=
  ∀ (i : Instr) (s t : State) (b : Byte), exec i s = .next t →
    ∃ b', exec i { s with st := b } = .next { t with st := b' }

/-- A store is seen by the next fetch (R82; decision D25): when LD [I], Vx stores V0 and V1 right behind itself, the next
step executes the instruction that those two bytes encode. -/
def Obligations.StoredWordIsExecutedNext : Prop :=
  ∀ (s : State) (x : RegIx), s.status = .running → 1 ≤ x.val → s.i = s.pc + 2 → s.i.toNat + x.val ≤ 0xFFF →
    ∃ t, exec (.stRegs x) s = .next t ∧
      step t = exec (decode (BitVec.ofNat 16 ((s.getV 0).toNat * 256 + (s.getV 1).toNat))) t

/-! ### Control flow -/

/-- R141 (the stale stack entry and the error are decisions D12, D13): RET. -/
def Obligations.RetReturnsPastTheCall : Prop :=
  decode 0x00EE = .ret ∧
  (∀ (s : State) (h : s.sp.toNat - 1 < 16), 1 ≤ s.sp.toNat →
    ∃ t, exec .ret s = .next t ∧ t.pc = s.stackAt ⟨s.sp.toNat - 1, h⟩ + 2 ∧ t.sp.toNat = s.sp.toNat - 1 ∧
      Kept [.pc, .sp] s t) ∧
  (∀ s : State, s.sp.toNat = 0 → exec .ret s = .next (s.haltedWith (.stackUnderflow s.pc)))

/-- R142 (its encoding but for two words is decision D16): SYS is a jump. -/
def Obligations.SysJumps : Prop :=
  ∀ (nnn : Addr12) (s : State), (nnn ≠ 0x0E0 → nnn ≠ 0x0EE → decode (patNNN 0x0 nnn) = .sys nnn) ∧
    ∃ t, exec (.sys nnn) s = .next t ∧ t.pc.toNat = nnn.toNat ∧ Kept [.pc] s t

/-- R143: JMP; a jump to itself changes nothing, and the target 0xFFF raises AddressOutOfRange at the next fetch
(decisions D10, D13). -/
def Obligations.JmpJumps : Prop :=
  ∀ (nnn : Addr12) (s : State), decode (patNNN 0x1 nnn) = .jmp nnn ∧
    ∃ t, exec (.jmp nnn) s = .next t ∧ t.pc.toNat = nnn.toNat ∧ Kept [.pc] s t ∧
      (nnn.toNat = s.pc.toNat → t = s) ∧
      (nnn = 0xFFF → s.status = .running →
        step t = .next (t.haltedWith (.addressOutOfRange 0xFFF 0x1000)))

/-- R144: CALL pushes its own address and jumps, and overflows with 16 entries in use (decisions D12, D13). -/
def Obligations.CallPushesOwnAddressAndJumps : Prop :=
  ∀ nnn : Addr12, decode (patNNN 0x2 nnn) = .call nnn ∧
    (∀ (s : State) (h : s.sp.toNat < 16),
      ∃ t, exec (.call nnn) s = .next t ∧ t.pc.toNat = nnn.toNat ∧ t.sp.toNat = s.sp.toNat + 1 ∧
        t.stackAt ⟨s.sp.toNat, h⟩ = s.pc ∧ (∀ j, j.val ≠ s.sp.toNat → t.stackAt j = s.stackAt j) ∧
        Kept [.pc, .sp, .stack] s t) ∧
    (∀ s : State, s.sp.toNat = 16 →
      exec (.call nnn) s = .next (s.haltedWith (.stackOverflow s.pc nnn)))

/-- R145 (decision D35): JP V0, addr is not masked to 12 bits. -/
def Obligations.JpV0AddsV0 : Prop :=
  ∀ (nnn : Addr12) (s : State), decode (patNNN 0xB nnn) = .jpV0 nnn ∧
    ∃ t, exec (.jpV0 nnn) s = .next t ∧ t.pc.toNat = nnn.toNat + (s.getV 0).toNat ∧ Kept [.pc] s t

/-- R146: SE Vx, byte. -/
def Obligations.SeByteSkipsOnEqual : Prop :=
  ∀ (x : RegIx) (kk : Byte) (s : State), decode (patXKK 0x3 x kk) = .seByte x kk ∧
    ∃ t, exec (.seByte x kk) s = .next t ∧ (s.getV x = kk → t.pc = s.pc + 4) ∧
      (s.getV x ≠ kk → t.pc = s.pc + 2) ∧ Kept [.pc] s t

/-- R147: SNE Vx, byte. -/
def Obligations.SneByteSkipsOnDifferent : Prop :=
  ∀ (x : RegIx) (kk : Byte) (s : State), decode (patXKK 0x4 x kk) = .sneByte x kk ∧
    ∃ t, exec (.sneByte x kk) s = .next t ∧ (s.getV x ≠ kk → t.pc = s.pc + 4) ∧
      (s.getV x = kk → t.pc = s.pc + 2) ∧ Kept [.pc] s t

/-- R148 and R149 (the ignored low nibble is decision D17): SE and SNE of two registers. -/
def Obligations.RegisterSkipsCompare : Prop :=
  ∀ (x y : RegIx) (n : Nibble) (s : State),
    decode (patXYN 0x5 x y n) = .seReg x y n ∧ decode (patXYN 0x9 x y n) = .sneReg x y n ∧
    (∃ t, exec (.seReg x y n) s = .next t ∧ (s.getV x = s.getV y → t.pc = s.pc + 4) ∧
      (s.getV x ≠ s.getV y → t.pc = s.pc + 2) ∧ Kept [.pc] s t) ∧
    (∃ t, exec (.sneReg x y n) s = .next t ∧ (s.getV x ≠ s.getV y → t.pc = s.pc + 4) ∧
      (s.getV x = s.getV y → t.pc = s.pc + 2) ∧ Kept [.pc] s t)

/-! ### Register loads, ALU, random -/

/-- R161: LD Vx, byte. -/
def Obligations.LdByteLoadsImmediate : Prop :=
  ∀ (x : RegIx) (kk : Byte) (s : State), decode (patXKK 0x6 x kk) = .ldByte x kk ∧
    ∃ t, exec (.ldByte x kk) s = .next t ∧ t.getV x = kk ∧ RegsKept [x] s t ∧ t.pc = s.pc + 2 ∧
      Kept [.v, .pc] s t

/-- R162: ADD Vx, byte wraps and sets no flag. -/
def Obligations.AddByteWrapsWithoutFlag : Prop :=
  ∀ (x : RegIx) (kk : Byte) (s : State), decode (patXKK 0x7 x kk) = .addByte x kk ∧
    ∃ t, exec (.addByte x kk) s = .next t ∧ (t.getV x).toNat = ((s.getV x).toNat + kk.toNat) % 256 ∧
      RegsKept [x] s t ∧ t.pc = s.pc + 2 ∧ Kept [.v, .pc] s t

/-- R163: LD Vx, Vy. -/
def Obligations.LdRegCopies : Prop :=
  ∀ (x y : RegIx) (s : State), decode (patXYN 0x8 x y 0x0) = .ldReg x y ∧
    ∃ t, exec (.ldReg x y) s = .next t ∧ t.getV x = s.getV y ∧ RegsKept [x] s t ∧ t.pc = s.pc + 2 ∧
      Kept [.v, .pc] s t

/-- R164, R165, R166 (VF unchanged is decision D21): the bitwise operations, bit by bit. -/
def Obligations.BitwiseOperationsLeaveVf : Prop :=
  ∀ (x y : RegIx) (s : State),
    decode (patXYN 0x8 x y 0x1) = .orReg x y ∧ decode (patXYN 0x8 x y 0x2) = .andReg x y ∧
    decode (patXYN 0x8 x y 0x3) = .xorReg x y ∧
    (∃ t, exec (.orReg x y) s = .next t ∧
      (∀ b < 8, (t.getV x).getLsbD b = ((s.getV x).getLsbD b || (s.getV y).getLsbD b)) ∧
      RegsKept [x] s t ∧ t.pc = s.pc + 2 ∧ Kept [.v, .pc] s t) ∧
    (∃ t, exec (.andReg x y) s = .next t ∧
      (∀ b < 8, (t.getV x).getLsbD b = ((s.getV x).getLsbD b && (s.getV y).getLsbD b)) ∧
      RegsKept [x] s t ∧ t.pc = s.pc + 2 ∧ Kept [.v, .pc] s t) ∧
    (∃ t, exec (.xorReg x y) s = .next t ∧
      (∀ b < 8, (t.getV x).getLsbD b = ((s.getV x).getLsbD b != (s.getV y).getLsbD b)) ∧
      RegsKept [x] s t ∧ t.pc = s.pc + 2 ∧ Kept [.v, .pc] s t)

/-- R167 (the modulus is decision D5, the order with x = F decision D15): ADD Vx, Vy stores the exact sum modulo 255 and
VF says whether the sum exceeds 255. -/
def Obligations.AddRegStoresSumModulo255 : Prop :=
  ∀ (x y : RegIx) (s : State), decode (patXYN 0x8 x y 0x4) = .addReg x y ∧
    ∃ t, exec (.addReg x y) s = .next t ∧
      (x ≠ 15 → (t.getV x).toNat = ((s.getV x).toNat + (s.getV y).toNat) % 255) ∧
      (t.getV 15).toNat = (if 255 < (s.getV x).toNat + (s.getV y).toNat then 1 else 0) ∧
      RegsKept [x, 15] s t ∧ t.pc = s.pc + 2 ∧ Kept [.v, .pc] s t

/-- R168: SUB Vx, Vy; the flag is strict and is written last (the order with x = F is decision D15). -/
def Obligations.SubSubtractsWithStrictFlag : Prop :=
  ∀ (x y : RegIx) (s : State), decode (patXYN 0x8 x y 0x5) = .subReg x y ∧
    ∃ t, exec (.subReg x y) s = .next t ∧
      (x ≠ 15 → (t.getV x).toNat = (256 + (s.getV x).toNat - (s.getV y).toNat) % 256) ∧
      (t.getV 15).toNat = (if (s.getV y).toNat < (s.getV x).toNat then 1 else 0) ∧
      RegsKept [x, 15] s t ∧ t.pc = s.pc + 2 ∧ Kept [.v, .pc] s t

/-- R170: SUBN Vx, Vy; the flag is strict and is written last (the order with x = F is decision D15). -/
def Obligations.SubnSubtractsReversed : Prop :=
  ∀ (x y : RegIx) (s : State), decode (patXYN 0x8 x y 0x7) = .subnReg x y ∧
    ∃ t, exec (.subnReg x y) s = .next t ∧
      (x ≠ 15 → (t.getV x).toNat = (256 + (s.getV y).toNat - (s.getV x).toNat) % 256) ∧
      (t.getV 15).toNat = (if (s.getV x).toNat < (s.getV y).toNat then 1 else 0) ∧
      RegsKept [x, 15] s t ∧ t.pc = s.pc + 2 ∧ Kept [.v, .pc] s t

/-- R169 and R171 (the write order with x = F is decision D15): SHR and SHL shift by one bit, do not read Vy, and leave
the bit shifted out in VF. -/
def Obligations.ShiftsLeaveBitInVf : Prop :=
  ∀ (x y : RegIx) (s : State),
    decode (patXYN 0x8 x y 0x6) = .shr x y ∧ decode (patXYN 0x8 x y 0xE) = .shl x y ∧
    (∃ t, exec (.shr x y) s = .next t ∧ (x ≠ 15 → (t.getV x).toNat = (s.getV x).toNat / 2) ∧
      (t.getV 15).toNat = (s.getV x).toNat % 2 ∧ RegsKept [x, 15] s t ∧ t.pc = s.pc + 2 ∧ Kept [.v, .pc] s t) ∧
    (∃ t, exec (.shl x y) s = .next t ∧ (x ≠ 15 → (t.getV x).toNat = (s.getV x).toNat * 2 % 256) ∧
      (t.getV 15).toNat = (s.getV x).toNat / 128 ∧ RegsKept [x, 15] s t ∧ t.pc = s.pc + 2 ∧ Kept [.v, .pc] s t)

/-- R176 (decision D27): RND masks the random byte, which is the offered one if there is an offer and otherwise a free
value: the statement holds whatever `Config.randByte` is. -/
def Obligations.RndMasksRandomByte : Prop :=
  ∀ (x : RegIx) (kk : Byte) (s : State), decode (patXKK 0xC x kk) = .rnd x kk ∧
    ∃ t, exec (.rnd x kk) s = .next t ∧
      (∀ k < 8, (t.getV x).getLsbD k =
        ((s.randOffer.getD (Config.randByte s.randDraws)).getLsbD k && kk.getLsbD k)) ∧
      RegsKept [x] s t ∧ t.pc = s.pc + 2 ∧ t.randDraws = s.randDraws + 1 ∧ Kept [.v, .pc, .randDraws] s t

/-! ### Index register and memory -/

/-- R190: LD I, addr. -/
def Obligations.LdILoadsAddress : Prop :=
  ∀ (nnn : Addr12) (s : State), decode (patNNN 0xA nnn) = .ldI nnn ∧
    ∃ t, exec (.ldI nnn) s = .next t ∧ t.i.toNat = nnn.toNat ∧ t.pc = s.pc + 2 ∧ Kept [.i, .pc] s t

/-- R191 (decision D9): ADD I, Vx wraps at 16 bits only and writes no flag. -/
def Obligations.AddIIsNotMaskedTo12Bits : Prop :=
  ∀ (x : RegIx) (s : State), decode (patXKK 0xF x 0x1E) = .addI x ∧
    ∃ t, exec (.addI x) s = .next t ∧ t.i.toNat = (s.i.toNat + (s.getV x).toNat) % 0x10000 ∧ t.pc = s.pc + 2 ∧
      Kept [.i, .pc] s t

/-- R192: LD F, Vx; `Vx` is not masked. -/
def Obligations.LdFPointsAtGlyph : Prop :=
  ∀ (x : RegIx) (s : State), decode (patXKK 0xF x 0x29) = .ldF x ∧
    ∃ t, exec (.ldF x) s = .next t ∧ t.i.toNat = (s.getV x).toNat * 5 ∧ t.pc = s.pc + 2 ∧ Kept [.i, .pc] s t

/-- R193 (decision D10): LD B, Vx stores the three BCD digits at `I`, or halts with nothing written when one of the
three addresses is above 0xFFF. -/
def Obligations.LdBStoresDigits : Prop :=
  ∀ (x : RegIx) (s : State), decode (patXKK 0xF x 0x33) = .ldB x ∧
    (s.base + 2 ≤ 0xFFF → ∃ t, exec (.ldB x) s = .next t ∧
      (t.ram.read s.base).toNat = (s.getV x).toNat / 100 ∧
      (t.ram.read (s.base + 1)).toNat = (s.getV x).toNat / 10 % 10 ∧
      (t.ram.read (s.base + 2)).toNat = (s.getV x).toNat % 10 ∧
      BytesKept s.base 3 s t ∧ t.pc = s.pc + 2 ∧ Kept [.ram, .pc] s t) ∧
    (0xFFF < s.base + 2 → exec (.ldB x) s =
      .next (s.haltedWith (.addressOutOfRange s.pc (max s.base 0x1000))))

/-- R194 (decisions D10, D20): LD [I], Vx stores V0 to Vx at `I` and up and leaves `I`, or halts with nothing written. -/
def Obligations.StoreRegistersAtI : Prop :=
  ∀ (x : RegIx) (s : State), decode (patXKK 0xF x 0x55) = .stRegs x ∧
    (s.base + x.val ≤ 0xFFF → ∃ t, exec (.stRegs x) s = .next t ∧
      (∀ j, j ≤ x → t.ram.read (s.base + j.val) = s.getV j) ∧
      BytesKept s.base (x.val + 1) s t ∧ t.pc = s.pc + 2 ∧ Kept [.ram, .pc] s t) ∧
    (0xFFF < s.base + x.val → exec (.stRegs x) s =
      .next (s.haltedWith (.addressOutOfRange s.pc (max s.base 0x1000))))

/-- R195 (decisions D10, D20): LD Vx, [I] loads V0 to Vx from `I` and up and leaves `I`, or halts with nothing
written. -/
def Obligations.LoadRegistersFromI : Prop :=
  ∀ (x : RegIx) (s : State), decode (patXKK 0xF x 0x65) = .ldRegs x ∧
    (s.base + x.val ≤ 0xFFF → ∃ t, exec (.ldRegs x) s = .next t ∧
      (∀ j, j ≤ x → t.getV j = s.ram.read (s.base + j.val)) ∧ (∀ j, x < j → t.getV j = s.getV j) ∧
      t.pc = s.pc + 2 ∧ Kept [.v, .pc] s t) ∧
    (0xFFF < s.base + x.val → exec (.ldRegs x) s =
      .next (s.haltedWith (.addressOutOfRange s.pc (max s.base 0x1000))))

/-! ### Display -/

/-- R210: CLS clears every pixel, and `is_clear()` is true afterwards. -/
def Obligations.ClsClearsFramebuffer : Prop :=
  decode 0x00E0 = .cls ∧
  ∀ s : State, ∃ t, exec .cls s = .next t ∧ (∀ r c, t.fb.pixel r c = false) ∧ t.fb.isClear = true ∧
    t.pc = s.pc + 2 ∧ Kept [.fb, .pc] s t ∧ ((∀ r c, s.fb.pixel r c = false) → t.fb = s.fb)

/-- R211 and R213 (the bit order is decision D18, the collision rule D6): the blit's loop is, pixel by pixel, the XOR of
the framebuffer with the sprite wrapped on both axes, and it reports a collision exactly when a sprite bit 1 meets a
pixel that was 1. -/
def Obligations.BlitIsWrappedXor : Prop :=
  ∀ (x y : Byte) (bytes : List Byte) (f : Framebuffer), bytes.length ≤ 15 →
    (∀ r c, (displaySprite x y bytes f).1.pixel r c = true ↔
      ¬(f.pixel r c = true ↔ SpriteCovers bytes x y r c)) ∧
    ((displaySprite x y bytes f).2 = true ↔ ∃ r c, SpriteCovers bytes x y r c ∧ f.pixel r c = true)

/-- R212 (decisions D6, D7, D10, D18, D19): DRW flips the pixels its sprite of `n` bytes at `I` covers at the old
(Vx, Vy), writes the collision to VF, and changes nothing else; a sprite address above 0xFFF halts with nothing
written. -/
def Obligations.DrwDrawsSpriteFromMemory : Prop :=
  ∀ (x y : RegIx) (n : Nibble) (s : State), decode (patXYN 0xD x y n) = .drw x y n ∧
    (n.toNat = 0 ∨ s.base + n.toNat - 1 ≤ 0xFFF → ∃ t bytes, exec (.drw x y n) s = .next t ∧
      bytes = (List.range n.toNat).map (fun k => s.ram.read (s.base + k)) ∧
      (∀ r c, t.fb.pixel r c = true ↔ ¬(s.fb.pixel r c = true ↔ SpriteCovers bytes (s.getV x) (s.getV y) r c)) ∧
      (t.getV 15 = 1 ∨ t.getV 15 = 0) ∧
      (t.getV 15 = 1 ↔ ∃ r c, SpriteCovers bytes (s.getV x) (s.getV y) r c ∧ s.fb.pixel r c = true) ∧
      RegsKept [15] s t ∧ t.pc = s.pc + 2 ∧ Kept [.v, .fb, .pc] s t) ∧
    (0 < n.toNat → 0xFFF < s.base + n.toNat - 1 → exec (.drw x y n) s =
      .next (s.haltedWith (.addressOutOfRange s.pc (max s.base 0x1000))))

/-- The corner case of R212, as its pseudocode has it (assumption log entry 16): the same DRW twice restores the
framebuffer, and the second one reports a collision exactly when the first one turned a pixel on; from a clear
framebuffer that is when the sprite has a 1 bit. -/
def Obligations.DrawingTwiceRestoresFramebuffer : Prop :=
  ∀ (x y : RegIx) (n : Nibble) (s : State), x ≠ 15 → y ≠ 15 → (n.toNat = 0 ∨ s.base + n.toNat - 1 ≤ 0xFFF) →
    ∃ t u, exec (.drw x y n) s = .next t ∧ exec (.drw x y n) t = .next u ∧
      (∀ r c, u.fb.pixel r c = s.fb.pixel r c) ∧
      (u.getV 15 = 1 ↔ ∃ r c, t.fb.pixel r c = true ∧ s.fb.pixel r c = false)

/-! ### Keypad and timers -/

/-- R231 and R232 (the key check is R230, decision D11): SKP and SKNP, and their halt on a key number above 15. -/
def Obligations.KeySkipsReadKeypad : Prop :=
  ∀ (x : RegIx) (s : State), decode (patXKK 0xE x 0x9E) = .skp x ∧ decode (patXKK 0xE x 0xA1) = .sknp x ∧
    (∀ h : (s.getV x).toNat < 16,
      (∃ t, exec (.skp x) s = .next t ∧
        (s.keyAt ⟨(s.getV x).toNat, h⟩ = true → t.pc = s.pc + 4) ∧
        (s.keyAt ⟨(s.getV x).toNat, h⟩ = false → t.pc = s.pc + 2) ∧ Kept [.pc] s t) ∧
      (∃ t, exec (.sknp x) s = .next t ∧
        (s.keyAt ⟨(s.getV x).toNat, h⟩ = false → t.pc = s.pc + 4) ∧
        (s.keyAt ⟨(s.getV x).toNat, h⟩ = true → t.pc = s.pc + 2) ∧ Kept [.pc] s t)) ∧
    (15 < (s.getV x).toNat →
      exec (.skp x) s = .next (s.haltedWith (.keyOutOfRange s.pc (s.getV x))) ∧
      exec (.sknp x) s = .next (s.haltedWith (.keyOutOfRange s.pc (s.getV x))))

/-- R233 (the lowest key is decision D8): LD Vx, K takes the lowest pressed key, and with none pressed leaves every part
of the state as it is. -/
def Obligations.LdVxKTakesLowestKeyOrStalls : Prop :=
  ∀ (x : RegIx) (s : State), decode (patXKK 0xF x 0x0A) = .ldVxK x ∧
    (∀ k, s.keyAt k = true → (∀ j, j < k → s.keyAt j = false) →
      ∃ t, exec (.ldVxK x) s = .next t ∧ (t.getV x).toNat = k.val ∧ RegsKept [x] s t ∧ t.pc = s.pc + 2 ∧
        Kept [.v, .pc] s t) ∧
    ((∀ k, s.keyAt k = false) → exec (.ldVxK x) s = .next s)

/-- LD Vx, DT of R234, whose remark on a whole batch is not part of this statement; `DT` itself is unchanged. -/
def Obligations.LdVxDTReadsDelayTimer : Prop :=
  ∀ (x : RegIx) (s : State), decode (patXKK 0xF x 0x07) = .ldVxDT x ∧
    ∃ t, exec (.ldVxDT x) s = .next t ∧ t.getV x = s.dt ∧ RegsKept [x] s t ∧ t.pc = s.pc + 2 ∧ Kept [.v, .pc] s t

/-- R235: LD DT, Vx takes effect at once, and the next tick decrements the written value. -/
def Obligations.LdDTVxSetsDelayTimer : Prop :=
  ∀ (x : RegIx) (s : State), decode (patXKK 0xF x 0x15) = .ldDTVx x ∧
    ∃ t, exec (.ldDTVx x) s = .next t ∧ t.dt = s.getV x ∧ t.pc = s.pc + 2 ∧ Kept [.dt, .pc] s t ∧
      (s.status = .running → (tick t).dt.toNat = (s.getV x).toNat - 1)

/-- R236: LD ST, Vx; `snapshot` and `sound_on` show it (the output `sound_on` is general knowledge, decision D28). -/
def Obligations.LdSTVxSetsSoundTimer : Prop :=
  ∀ (x : RegIx) (s : State), decode (patXKK 0xF x 0x18) = .ldSTVx x ∧
    ∃ t, exec (.ldSTVx x) s = .next t ∧ t.st = s.getV x ∧ t.pc = s.pc + 2 ∧ Kept [.st, .pc] s t ∧
      (snapshot t).st = s.getV x ∧ (soundOn t = true ↔ (s.getV x).toNat ≠ 0)

/-- R252: UNKNOWN raises UnknownOpcode and writes nothing else; the snapshot afterwards shows the error (decisions D13,
D32). -/
def Obligations.UnknownHaltsWithOpcode : Prop :=
  ∀ (op : Word) (s : State), ∃ t, exec (.unknown op) s = .next t ∧
    t.status = .halted (.unknownOpcode s.pc op) ∧ Kept [.status] s t ∧
    snapshot t = { snapshot s with status := .halted (.unknownOpcode s.pc op) }

/-! ### The host's transactions -/

/-- R48 and R290 (the zeros, `PC` and `STATUS` are decisions D2, D3, D13, the font's bytes the parameter FONT): what
reset leaves, from any state. -/
def Obligations.ResetLeavesListedValues : Prop :=
  ∀ s : State,
    (∀ j, (reset s).getV j = 0) ∧ (reset s).i = 0 ∧ (reset s).pc = 0x200 ∧ (reset s).sp = 0 ∧
    (∀ j, (reset s).stackAt j = 0) ∧ (reset s).dt = 0 ∧ (reset s).st = 0 ∧ (∀ k, (reset s).keyAt k = false) ∧
    (∀ r c, (reset s).fb.pixel r c = false) ∧ (reset s).status = .running ∧
    (∀ a, a < 80 → Config.font[a]? = some ((reset s).ram.read a)) ∧
    (∀ a, 80 ≤ a → (reset s).ram.read a = 0)

/-- R270 (decision D30): a running core's tick takes each timer one towards 0 and never below it, the two
independently. -/
def Obligations.TickCountsTimersDown : Prop :=
  ∀ s : State, s.status = .running → (tick s).dt.toNat = s.dt.toNat - 1 ∧ (tick s).st.toNat = s.st.toNat - 1 ∧
    Kept [.dt, .st] s (tick s)

/-- R292 (decision D29): load copies the ROM verbatim to 0x200 and up and writes nothing else, or rejects a ROM of more
than 3584 bytes. That it keeps the canonical form of memory is no clause of R292: the form is the model's own choice
(assumption log entry 7). -/
def Obligations.LoadCopiesRom : Prop :=
  ∀ (rom : List Byte) (s : State),
    (rom.length ≤ 3584 → ∃ t, load rom s = .ok t ∧ (∀ k (h : k < rom.length), t.ram.read (0x200 + k) = rom[k]) ∧
      BytesKept 0x200 rom.length s t ∧ Kept [.ram] s t ∧ (s.ram.wf = true → t.ram.wf = true)) ∧
    (3584 < rom.length → load rom s = .error .tooLarge)

/-- R61 (decision D22; which byte a batch offers to which step is assumption log entry 31): a batch of one step is the
step with the first byte on offer, a running batch can be cut in two anywhere, and it stops after the first step that
halts, or stops by the model's fault. -/
def Obligations.BatchStopsAtFirstHalt : Prop :=
  (∀ (rands : List Byte) (s : State),
    stepBatch 0 rands s = .next s ∧ stepBatch 1 rands s = stepWith rands.head? s) ∧
  (∀ (n m : Nat) (rands : List Byte) (s t : State), s.status = .running → stepBatch n rands s = .next t →
    (t.status = .running → stepBatch (n + m) rands s = stepBatch m (rands.drop n) t) ∧
    (t.status ≠ .running → stepBatch (n + m) rands s = .next t)) ∧
  (∀ (n m : Nat) (rands : List Byte) (s : State) (r : Fault), stepBatch n rands s = .fault r →
    stepBatch (n + m) rands s = .fault r)

/-- R301 (decision D33): the keypad is constant for the whole of a batch, and a frame leaves it as the host set it
(R40, R61). -/
def Obligations.KeypadIsConstantWithinBatch : Prop :=
  (∀ (n : Nat) (rands : List Byte) (s t : State), stepBatch n rands s = .next t → t.key = s.key) ∧
  (∀ (keys : Vector Bool 16) (rands : List Byte) (s t : State), frame keys rands s = .next t →
    ∀ k : Fin 16, t.keyAt k = keys[k])

/-- R271 and R304 (R304 is marked derived in the spec; decisions D22, D30): a frame whose nine steps end in a running core
ends with each timer one lower than those steps left it, a timer at 0 excepted, and `PC` where they left it. -/
def Obligations.FrameTicksOnce : Prop :=
  ∀ (keys : Vector Bool 16) (rands : List Byte) (s t : State),
    stepBatch 9 rands (setKeys keys s) = .next t → t.status = .running →
    ∃ u, frame keys rands s = .next u ∧ u.dt.toNat = t.dt.toNat - 1 ∧ u.st.toNat = t.st.toNat - 1 ∧ u.pc = t.pc

/-- R60 and R176 (decision D27; the offer's form in the state is assumption log entry 2): step(rand) gives its byte to an
RND of that step, which counts one more draw, and to nothing else, and leaves no offer behind; with no byte it is the
step. -/
def Obligations.StepOffersItsByteToRnd : Prop :=
  (∀ (x : RegIx) (kk r : Byte) (s : State), s.status = .running → OpcodeAt s (patXKK 0xC x kk) →
    ∃ t, stepWith (some r) s = .next t ∧ (∀ k < 8, (t.getV x).getLsbD k = (r.getLsbD k && kk.getLsbD k)) ∧
      RegsKept [x] s t ∧ t.pc = s.pc + 2 ∧ t.randOffer = none ∧ t.randDraws = s.randDraws + 1 ∧
      Kept [.v, .pc, .randOffer, .randDraws] s t) ∧
  (∀ (r : Byte) (op : Word) (s : State), s.status = .running → s.randOffer = none → OpcodeAt s op →
    (∀ x kk, decode op ≠ .rnd x kk) → stepWith (some r) s = step s) ∧
  (∀ s : State, s.randOffer = none → stepWith none s = step s)
end

