-- ==== Sys2Proof/Laws/Decode.lean ====
section
/-! SUPPORT. The fields of a joined word and the joins of a word's fields: the bit-level facts under both round trips of
decoding and encoding. -/

namespace Sys2Proof

/-! ### The value of a joined word -/

theorem toNat_wordA (f : BitVec 4) (nnn : Addr12) : (wordA f nnn).toNat = f.toNat * 4096 + nnn.toNat := by
  have h := nnn.isLt
  show (f ++ nnn).toNat = _
  rw [BitVec.toNat_append, Nat.shiftLeft_eq, ← Nat.shiftLeft_eq, ← Nat.shiftLeft_add_eq_or_of_lt h, Nat.shiftLeft_eq]

theorem toNat_wordXK (f : BitVec 4) (x : RegIx) (kk : Byte) :
    (wordXK f x kk).toNat = f.toNat * 4096 + x.val * 256 + kk.toNat := by
  have h := kk.isLt
  have hx : (regBits x).toNat < 2 ^ 4 := (regBits x).isLt
  show ((f ++ regBits x) ++ kk).toNat = _
  rw [BitVec.toNat_append, ← Nat.shiftLeft_add_eq_or_of_lt h, BitVec.toNat_append,
    ← Nat.shiftLeft_add_eq_or_of_lt hx, Nat.shiftLeft_eq, Nat.shiftLeft_eq]
  show (f.toNat * 16 + x.val) * 256 + kk.toNat = _
  omega

theorem toNat_wordXY (f : BitVec 4) (x y : RegIx) (n : Nibble) :
    (wordXY f x y n).toNat = f.toNat * 4096 + x.val * 256 + y.val * 16 + n.toNat := by
  have h := n.isLt
  have hx : (regBits x).toNat < 2 ^ 4 := (regBits x).isLt
  have hy : (regBits y).toNat < 2 ^ 4 := (regBits y).isLt
  show (((f ++ regBits x) ++ regBits y) ++ n).toNat = _
  rw [BitVec.toNat_append, ← Nat.shiftLeft_add_eq_or_of_lt h, BitVec.toNat_append,
    ← Nat.shiftLeft_add_eq_or_of_lt hy, BitVec.toNat_append, ← Nat.shiftLeft_add_eq_or_of_lt hx,
    Nat.shiftLeft_eq, Nat.shiftLeft_eq, Nat.shiftLeft_eq]
  show ((f.toNat * 16 + x.val) * 16 + y.val) * 16 + n.toNat = _
  omega

/-! ### The value of a field -/

theorem toNat_family (op : Word) : (family op).toNat = op.toNat / 4096 := by
  have := op.isLt
  simp only [family, BitVec.extractLsb'_toNat, Nat.shiftRight_eq_div_pow]
  omega

theorem val_fieldX (op : Word) : (fieldX op).val = op.toNat / 256 % 16 := by
  simp only [fieldX, BitVec.val_toFin, BitVec.extractLsb'_toNat, Nat.shiftRight_eq_div_pow]

theorem val_fieldY (op : Word) : (fieldY op).val = op.toNat / 16 % 16 := by
  simp only [fieldY, BitVec.val_toFin, BitVec.extractLsb'_toNat, Nat.shiftRight_eq_div_pow]

theorem toNat_fieldN (op : Word) : (fieldN op).toNat = op.toNat % 16 := by
  simp only [fieldN, BitVec.extractLsb'_toNat, Nat.shiftRight_zero]

theorem toNat_fieldKK (op : Word) : (fieldKK op).toNat = op.toNat % 256 := by
  simp only [fieldKK, BitVec.extractLsb'_toNat, Nat.shiftRight_zero]

theorem toNat_fieldNNN (op : Word) : (fieldNNN op).toNat = op.toNat % 4096 := by
  simp only [fieldNNN, BitVec.extractLsb'_toNat, Nat.shiftRight_zero]

/-! ### The fields of a joined word -/

@[simp] theorem family_wordA (f : BitVec 4) (nnn : Addr12) : family (wordA f nnn) = f :=
  BitVec.eq_of_toNat_eq (by have := nnn.isLt; rw [toNat_family, toNat_wordA]; omega)

@[simp] theorem fieldNNN_wordA (f : BitVec 4) (nnn : Addr12) : fieldNNN (wordA f nnn) = nnn :=
  BitVec.eq_of_toNat_eq (by have := nnn.isLt; rw [toNat_fieldNNN, toNat_wordA]; omega)

@[simp] theorem family_wordXK (f : BitVec 4) (x : RegIx) (kk : Byte) : family (wordXK f x kk) = f :=
  BitVec.eq_of_toNat_eq (by have := x.isLt; have := kk.isLt; rw [toNat_family, toNat_wordXK]; omega)

@[simp] theorem fieldX_wordXK (f : BitVec 4) (x : RegIx) (kk : Byte) : fieldX (wordXK f x kk) = x :=
  Fin.ext (by have := x.isLt; have := kk.isLt; rw [val_fieldX, toNat_wordXK]; omega)

@[simp] theorem fieldKK_wordXK (f : BitVec 4) (x : RegIx) (kk : Byte) : fieldKK (wordXK f x kk) = kk :=
  BitVec.eq_of_toNat_eq (by have := x.isLt; have := kk.isLt; rw [toNat_fieldKK, toNat_wordXK]; omega)

@[simp] theorem family_wordXY (f : BitVec 4) (x y : RegIx) (n : Nibble) : family (wordXY f x y n) = f :=
  BitVec.eq_of_toNat_eq
    (by have := x.isLt; have := y.isLt; have := n.isLt; rw [toNat_family, toNat_wordXY]; omega)

@[simp] theorem fieldX_wordXY (f : BitVec 4) (x y : RegIx) (n : Nibble) : fieldX (wordXY f x y n) = x :=
  Fin.ext (by have := x.isLt; have := y.isLt; have := n.isLt; rw [val_fieldX, toNat_wordXY]; omega)

@[simp] theorem fieldY_wordXY (f : BitVec 4) (x y : RegIx) (n : Nibble) : fieldY (wordXY f x y n) = y :=
  Fin.ext (by have := x.isLt; have := y.isLt; have := n.isLt; rw [val_fieldY, toNat_wordXY]; omega)

@[simp] theorem fieldN_wordXY (f : BitVec 4) (x y : RegIx) (n : Nibble) : fieldN (wordXY f x y n) = n :=
  BitVec.eq_of_toNat_eq
    (by have := x.isLt; have := y.isLt; have := n.isLt; rw [toNat_fieldN, toNat_wordXY]; omega)

/-! ### A word is the join of its fields -/

theorem wordA_fields (op : Word) : wordA (family op) (fieldNNN op) = op :=
  BitVec.eq_of_toNat_eq (by rw [toNat_wordA, toNat_family, toNat_fieldNNN]; omega)

theorem wordXK_fields (op : Word) : wordXK (family op) (fieldX op) (fieldKK op) = op :=
  BitVec.eq_of_toNat_eq (by rw [toNat_wordXK, toNat_family, val_fieldX, toNat_fieldKK]; omega)

theorem wordXY_fields (op : Word) : wordXY (family op) (fieldX op) (fieldY op) (fieldN op) = op :=
  BitVec.eq_of_toNat_eq (by rw [toNat_wordXY, toNat_family, val_fieldX, val_fieldY, toNat_fieldN]; omega)

/-! ### UNKNOWN words -/

theorem decode8_unknown {op : Word} (h : unknownNibbles8.contains (fieldN op) = true) : decode8 op = .unknown op := by
  simp only [unknownNibbles8, List.contains_cons, List.contains_nil, Bool.or_eq_true, beq_iff_eq, Bool.or_false] at h
  rcases h with h | h | h | h | h | h | h <;> simp [decode8, h]

theorem decodeE_unknown {op : Word} (h : knownBytesE.contains (fieldKK op) = false) : decodeE op = .unknown op := by
  simp only [knownBytesE, List.contains_cons, List.contains_nil, Bool.or_eq_false_iff, beq_eq_false_iff_ne] at h
  unfold decodeE
  split
  · exact absurd (BitVec.eq_of_toNat_eq ‹_›) h.1
  · exact absurd (BitVec.eq_of_toNat_eq ‹_›) h.2.1
  · rfl

theorem decodeF_unknown {op : Word} (h : knownBytesF.contains (fieldKK op) = false) : decodeF op = .unknown op := by
  simp only [knownBytesF, List.contains_cons, List.contains_nil, Bool.or_eq_false_iff, beq_eq_false_iff_ne] at h
  obtain ⟨h1, h2, h3, h4, h5, h6, h7, h8, h9, -⟩ := h
  unfold decodeF
  split
  · exact absurd (BitVec.eq_of_toNat_eq ‹_›) h1
  · exact absurd (BitVec.eq_of_toNat_eq ‹_›) h2
  · exact absurd (BitVec.eq_of_toNat_eq ‹_›) h3
  · exact absurd (BitVec.eq_of_toNat_eq ‹_›) h4
  · exact absurd (BitVec.eq_of_toNat_eq ‹_›) h5
  · exact absurd (BitVec.eq_of_toNat_eq ‹_›) h6
  · exact absurd (BitVec.eq_of_toNat_eq ‹_›) h7
  · exact absurd (BitVec.eq_of_toNat_eq ‹_›) h8
  · exact absurd (BitVec.eq_of_toNat_eq ‹_›) h9
  · rfl

/-- A word of R112's list decodes to UNKNOWN. -/
theorem decode_of_isUnknownWord {op : Word} (h : isUnknownWord op = true) : decode op = .unknown op := by
  simp only [isUnknownWord, Bool.or_eq_true, Bool.and_eq_true, beq_iff_eq, Bool.not_eq_true'] at h
  rcases h with (⟨hf, hn⟩ | ⟨hf, hk⟩) | ⟨hf, hk⟩
  · rw [decode, show family op = 0x8 from hf]; exact decode8_unknown hn
  · rw [decode, show family op = 0xE from hf]; exact decodeE_unknown hk
  · rw [decode, show family op = 0xF from hf]; exact decodeF_unknown hk

/-! ### Bytes -/

/-- The two bytes of a word, joined, are the word (R75). -/
@[simp] theorem opcodeOf_bytes (op : Word) : opcodeOf (highByte op) (lowByte op) = op := by
  have h : (lowByte op).toNat < 2 ^ 8 := (lowByte op).isLt
  have hop := op.isLt
  apply BitVec.eq_of_toNat_eq
  show (highByte op ++ lowByte op).toNat = _
  rw [BitVec.toNat_append, ← Nat.shiftLeft_add_eq_or_of_lt h, Nat.shiftLeft_eq]
  simp only [highByte, lowByte, BitVec.extractLsb'_toNat, Nat.shiftRight_eq_div_pow]
  omega

/-- `op = RAM[PC] * 256 + RAM[PC + 1]` (R75). -/
theorem toNat_opcodeOf (hi lo : Byte) : (opcodeOf hi lo).toNat = hi.toNat * 256 + lo.toNat := by
  show (hi ++ lo).toNat = _
  rw [BitVec.toNat_append, ← Nat.shiftLeft_add_eq_or_of_lt lo.isLt, Nat.shiftLeft_eq]

end Sys2Proof
end

