-- ==== Sys2Proof/Laws/Memory.lean ====
section
/-! SUPPORT. The laws of memory: a read after a write, and that every operation keeps the canonical form. -/

namespace Sys2Proof.Machine

/-! ### Reads -/

@[simp] theorem Memory.read_nil (a : Nat) : Memory.read [] a = Memory.unlisted a := rfl

theorem Memory.read_remove (m : Memory) (a c : Nat) :
    Memory.read (Memory.remove m a) c = if c = a then Memory.unlisted c else Memory.read m c := by
  induction m with
  | nil => simp [Memory.remove]
  | cons d m ih =>
    simp only [Memory.remove, Memory.read]
    by_cases hd : d.1 = a
    · rw [if_pos hd, ih]
      by_cases hc : c = a
      · simp [hc]
      · simp [hc, hd, Ne.symm hc]
    · rw [if_neg hd, Memory.read, ih]
      by_cases hc : c = a
      · simp [hc, hd]
      · simp [hc]

theorem Memory.read_insertCell (m : Memory) (a c : Nat) (b : Byte) (h : ∀ d ∈ m, d.1 ≠ a) :
    Memory.read (Memory.insertCell m a b) c = if c = a then b else Memory.read m c := by
  induction m with
  | nil => simp [Memory.insertCell, Memory.read, eq_comm]
  | cons d m ih =>
    have hd : d.1 ≠ a := h d (by simp)
    have hm : ∀ e ∈ m, e.1 ≠ a := fun e he => h e (by simp [he])
    simp only [Memory.insertCell]
    split
    · simp [Memory.read, eq_comm]
    · simp only [Memory.read, ih hm]
      by_cases hc : c = a
      · simp [hc, hd]
      · simp [hc]

theorem Memory.mem_remove {m : Memory} {a : Nat} {d : Host.Cell} (h : d ∈ Memory.remove m a) : d ∈ m ∧ d.1 ≠ a := by
  induction m with
  | nil => simp [Memory.remove] at h
  | cons e m ih =>
    simp only [Memory.remove] at h
    split at h
    · exact ⟨by simp [(ih h).1], (ih h).2⟩
    · rcases List.mem_cons.1 h with rfl | h
      · exact ⟨by simp, ‹_›⟩
      · exact ⟨by simp [(ih h).1], (ih h).2⟩

/-- A read after a write gives the byte written, and any other byte as before (R80). -/
theorem Memory.read_write (m : Memory) (a c : Nat) (b : Byte) :
    (Memory.write m a b).read c = if c = a then b else m.read c := by
  simp only [Memory.write]
  split
  · rename_i hb
    rw [Memory.read_remove]
    split
    · simp [*]
    · rfl
  · rw [Memory.read_insertCell _ _ _ _ fun d hd => (Memory.mem_remove hd).2, Memory.read_remove]
    split <;> rfl

/-- A read after a run of stores: the byte of its place in the list, or what it was. -/
theorem Memory.read_writeList (bs : List Byte) (m : Memory) (a c : Nat) :
    (Memory.writeList m a bs).read c = if h : a ≤ c ∧ c - a < bs.length then bs[c - a]'h.2 else m.read c := by
  induction bs generalizing m a with
  | nil => simp [Memory.writeList]
  | cons b bs ih =>
    rw [Memory.writeList, ih]
    simp only [Memory.read_write, List.length_cons]
    by_cases hc : c = a
    · subst hc; simp
    · by_cases h1 : a + 1 ≤ c ∧ c - (a + 1) < bs.length
      · have h2 : a ≤ c ∧ c - a < bs.length + 1 := by omega
        rw [dif_pos h1, dif_pos h2]
        have h3 : c - a = (c - (a + 1)) + 1 := by omega
        simp only [h3, List.getElem_cons_succ]
      · have h2 : ¬(a ≤ c ∧ c - a < bs.length + 1) := by omega
        rw [dif_neg h1, dif_neg h2, if_neg hc]

/-- A byte outside a run of stores is as before. -/
theorem Memory.read_writeList_outside (bs : List Byte) (m : Memory) {a c : Nat} (h : c < a ∨ a + bs.length ≤ c) :
    (Memory.writeList m a bs).read c = m.read c := by
  rw [Memory.read_writeList, dif_neg (by omega)]

/-- The byte of a run of stores at its place. -/
theorem Memory.read_writeList_at (bs : List Byte) (m : Memory) (a k : Nat) (h : k < bs.length) :
    (Memory.writeList m a bs).read (a + k) = bs[k] := by
  rw [Memory.read_writeList, dif_pos (by omega)]
  simp

@[simp] theorem Memory.length_readList (m : Memory) (a n : Nat) : (Memory.readList m a n).length = n := by
  induction n generalizing a with
  | zero => rfl
  | succ n ih => simp [Memory.readList, ih]

theorem Memory.getElem_readList (m : Memory) (a n k : Nat) (h : k < (Memory.readList m a n).length) :
    (Memory.readList m a n)[k] = m.read (a + k) := by
  induction n generalizing a k with
  | zero => simp [Memory.readList] at h
  | succ n ih =>
    cases k with
    | zero => rfl
    | succ k =>
      simp only [Memory.readList, List.getElem_cons_succ]
      rw [ih (a + 1) k (by simpa [Memory.readList] using h)]
      congr 1; omega

/-- A run of reads as a map over its offsets. -/
theorem Memory.readList_eq_map (m : Memory) (a n : Nat) :
    Memory.readList m a n = (List.range n).map fun k => m.read (a + k) := by
  refine List.ext_getElem (by simp) fun k h1 h2 => ?_
  simp [Memory.getElem_readList]

/-! ### The canonical form -/

theorem Memory.wfFrom_cons {lo : Nat} {c : Host.Cell} {m : Memory} :
    Memory.wfFrom lo (c :: m) = true ↔
      (lo ≤ c.1 ∧ c.1 < Config.ramSize) ∧ c.2 ≠ Memory.unlisted c.1 ∧ Memory.wfFrom (c.1 + 1) m = true := by
  simp [Memory.wfFrom, Bool.and_eq_true, and_assoc]

theorem Memory.wfFrom_mono {lo lo' : Nat} {m : Memory} (h : lo' ≤ lo) (hm : Memory.wfFrom lo m = true) :
    Memory.wfFrom lo' m = true := by
  cases m with
  | nil => rfl
  | cons c m =>
    rw [Memory.wfFrom_cons] at *
    exact ⟨⟨by omega, hm.1.2⟩, hm.2⟩

theorem Memory.wfFrom_remove {lo : Nat} {m : Memory} (a : Nat) (hm : Memory.wfFrom lo m = true) :
    Memory.wfFrom lo (Memory.remove m a) = true := by
  induction m generalizing lo with
  | nil => rfl
  | cons c m ih =>
    rw [Memory.wfFrom_cons] at hm
    simp only [Memory.remove]
    split
    · exact Memory.wfFrom_mono (by omega) (ih hm.2.2)
    · exact Memory.wfFrom_cons.2 ⟨hm.1, hm.2.1, ih hm.2.2⟩

theorem Memory.wfFrom_insertCell {lo : Nat} {m : Memory} {a : Nat} {b : Byte} (hm : Memory.wfFrom lo m = true)
    (hlo : lo ≤ a) (ha : a < Config.ramSize) (hb : b ≠ Memory.unlisted a) (h : ∀ d ∈ m, d.1 ≠ a) :
    Memory.wfFrom lo (Memory.insertCell m a b) = true := by
  induction m generalizing lo with
  | nil => exact Memory.wfFrom_cons.2 ⟨⟨hlo, ha⟩, hb, rfl⟩
  | cons c m ih =>
    rw [Memory.wfFrom_cons] at hm
    have hc : c.1 ≠ a := h c (by simp)
    simp only [Memory.insertCell]
    split
    · exact Memory.wfFrom_cons.2 ⟨⟨hlo, ha⟩, hb, Memory.wfFrom_cons.2 ⟨⟨by omega, hm.1.2⟩, hm.2⟩⟩
    · refine Memory.wfFrom_cons.2 ⟨hm.1, hm.2.1, ih hm.2.2 ?_ fun d hd => h d (by simp [hd])⟩
      omega

/-- A write to an address that exists keeps the canonical form. -/
theorem Memory.wf_write {m : Memory} {a : Nat} (b : Byte) (hm : Memory.wf m = true) (ha : a < Config.ramSize) :
    (Memory.write m a b).wf = true := by
  simp only [Memory.write, Memory.wf] at *
  split
  · exact Memory.wfFrom_remove a hm
  · exact Memory.wfFrom_insertCell (Memory.wfFrom_remove a hm) (by omega) ha ‹_›
      fun d hd => (Memory.mem_remove hd).2

/-- A run of stores to addresses that exist keeps the canonical form. -/
theorem Memory.wf_writeList {bs : List Byte} {m : Memory} {a : Nat} (hm : Memory.wf m = true)
    (ha : a + bs.length ≤ Config.ramSize) : (Memory.writeList m a bs).wf = true := by
  induction bs generalizing m a with
  | nil => exact hm
  | cons b bs ih =>
    simp only [List.length_cons] at ha
    exact ih (Memory.wf_write b hm (by omega)) (by omega)

/-- Placing an opcode keeps the canonical form. -/
theorem Memory.wf_placeWord {m : Memory} (a : Nat) (op : Word) (hm : Memory.wf m = true) :
    (Memory.placeWord m a op).wf = true := by
  simp only [Memory.placeWord]
  split <;> split <;> simp [Memory.wf_write, *]

theorem Memory.read_of_wfFrom {lo : Nat} {m : Memory} (hm : Memory.wfFrom lo m = true) {a : Nat} (ha : a < lo) :
    Memory.read m a = Memory.unlisted a := by
  induction m generalizing lo with
  | nil => rfl
  | cons c m ih =>
    rw [Memory.wfFrom_cons] at hm
    rw [Memory.read, if_neg (by omega), ih hm.2.2 (by omega)]

theorem Memory.eq_of_wfFrom {m m' : Memory} {lo : Nat} (hm : Memory.wfFrom lo m = true)
    (hm' : Memory.wfFrom lo m' = true) (h : ∀ a, lo ≤ a → Memory.read m a = Memory.read m' a) : m = m' := by
  induction m generalizing lo m' with
  | nil =>
    cases m' with
    | nil => rfl
    | cons c m' =>
      rw [Memory.wfFrom_cons] at hm'
      have := h c.1 hm'.1.1
      simp [Memory.read] at this
      exact absurd this.symm hm'.2.1
  | cons c m ih =>
    rw [Memory.wfFrom_cons] at hm
    cases m' with
    | nil =>
      have := h c.1 hm.1.1
      simp [Memory.read] at this
      exact absurd this hm.2.1
    | cons d m' =>
      rw [Memory.wfFrom_cons] at hm'
      have hcd : c.1 = d.1 := by
        rcases Nat.lt_trichotomy c.1 d.1 with hlt | heq | hgt
        · have := h c.1 hm.1.1
          rw [Memory.read, if_pos rfl, Memory.read, if_neg (by omega), Memory.read_of_wfFrom hm'.2.2 (by omega)] at this
          exact absurd this hm.2.1
        · exact heq
        · have := h d.1 hm'.1.1
          rw [Memory.read, if_neg (by omega), Memory.read_of_wfFrom hm.2.2 (by omega), Memory.read, if_pos rfl] at this
          exact absurd this.symm hm'.2.1
      have hv : c.2 = d.2 := by
        have := h c.1 hm.1.1
        rwa [Memory.read, if_pos rfl, Memory.read, if_pos hcd.symm] at this
      have hcd' : c = d := Prod.ext hcd hv
      subst hcd'
      congr 1
      refine ih hm.2.2 hm'.2.2 fun a ha => ?_
      have := h a (by omega)
      rwa [Memory.read, if_neg (by omega), Memory.read, if_neg (by omega)] at this

/-- Two memories in canonical form with the same bytes are the same list. -/
theorem Memory.eq_of_read_eq {m m' : Memory} (hm : Memory.wf m = true) (hm' : Memory.wf m' = true)
    (h : ∀ a, Memory.read m a = Memory.read m' a) : m = m' :=
  Memory.eq_of_wfFrom hm hm' fun a _ => h a

/-! ### The range check -/

/-- R74 in closed form: the first address above 0xFFF is `max a 0x1000`, and there is one exactly when the last address
is above 0xFFF. -/
theorem firstBadAddr_eq (n a : Nat) :
    firstBadAddr a n = if 0 < n ∧ 0xFFF < a + n - 1 then some (max a 0x1000) else none := by
  induction n generalizing a with
  | zero => simp [firstBadAddr]
  | succ n ih =>
    simp only [firstBadAddr, ih, Config.ramSize]
    by_cases h : 4096 ≤ a
    · rw [if_pos h, if_pos (by omega), Nat.max_eq_left (by omega)]
    · rw [if_neg h]
      by_cases h2 : 0 < n ∧ 0xFFF < a + 1 + n - 1
      · rw [if_pos h2, if_pos (by omega)]
        congr 1; omega
      · rw [if_neg h2, if_neg (by omega)]

theorem firstBadAddr_none {a n : Nat} : firstBadAddr a n = none ↔ n = 0 ∨ a + n - 1 ≤ 0xFFF := by
  rw [firstBadAddr_eq]
  split <;> simp <;> omega

theorem firstBadAddr_some {a n bad : Nat} :
    firstBadAddr a n = some bad ↔ (0 < n ∧ 0xFFF < a + n - 1) ∧ bad = max a 0x1000 := by
  rw [firstBadAddr_eq]
  split <;> simp [*, eq_comm]

end Sys2Proof.Machine
end

