-- ==== Sys2Proof/Laws/State.lean ====
section
/-! SUPPORT. One lemma per field per update of the state, each true by `rfl`, and the laws of the registers, stack
entries, keys and pixels, so that no later proof unfolds a record update. -/

namespace Sys2Proof.Machine

/-! ### `State.setV` -/

@[simp] theorem State.setV_v (s : State) (x : RegIx) (b : Byte) : (s.setV x b).v = s.v.set x b := rfl
@[simp] theorem State.setV_i (s : State) (x : RegIx) (b : Byte) : (s.setV x b).i = s.i := rfl
@[simp] theorem State.setV_pc (s : State) (x : RegIx) (b : Byte) : (s.setV x b).pc = s.pc := rfl
@[simp] theorem State.setV_sp (s : State) (x : RegIx) (b : Byte) : (s.setV x b).sp = s.sp := rfl
@[simp] theorem State.setV_stack (s : State) (x : RegIx) (b : Byte) : (s.setV x b).stack = s.stack := rfl
@[simp] theorem State.setV_dt (s : State) (x : RegIx) (b : Byte) : (s.setV x b).dt = s.dt := rfl
@[simp] theorem State.setV_st (s : State) (x : RegIx) (b : Byte) : (s.setV x b).st = s.st := rfl
@[simp] theorem State.setV_key (s : State) (x : RegIx) (b : Byte) : (s.setV x b).key = s.key := rfl
@[simp] theorem State.setV_fb (s : State) (x : RegIx) (b : Byte) : (s.setV x b).fb = s.fb := rfl
@[simp] theorem State.setV_ram (s : State) (x : RegIx) (b : Byte) : (s.setV x b).ram = s.ram := rfl
@[simp] theorem State.setV_status (s : State) (x : RegIx) (b : Byte) : (s.setV x b).status = s.status := rfl
@[simp] theorem State.setV_randOffer (s : State) (x : RegIx) (b : Byte) : (s.setV x b).randOffer = s.randOffer := rfl
@[simp] theorem State.setV_randDraws (s : State) (x : RegIx) (b : Byte) : (s.setV x b).randDraws = s.randDraws := rfl

/-! ### `State.setI` -/

@[simp] theorem State.setI_v (s : State) (w : Word) : (s.setI w).v = s.v := rfl
@[simp] theorem State.setI_i (s : State) (w : Word) : (s.setI w).i = w := rfl
@[simp] theorem State.setI_pc (s : State) (w : Word) : (s.setI w).pc = s.pc := rfl
@[simp] theorem State.setI_sp (s : State) (w : Word) : (s.setI w).sp = s.sp := rfl
@[simp] theorem State.setI_stack (s : State) (w : Word) : (s.setI w).stack = s.stack := rfl
@[simp] theorem State.setI_dt (s : State) (w : Word) : (s.setI w).dt = s.dt := rfl
@[simp] theorem State.setI_st (s : State) (w : Word) : (s.setI w).st = s.st := rfl
@[simp] theorem State.setI_key (s : State) (w : Word) : (s.setI w).key = s.key := rfl
@[simp] theorem State.setI_fb (s : State) (w : Word) : (s.setI w).fb = s.fb := rfl
@[simp] theorem State.setI_ram (s : State) (w : Word) : (s.setI w).ram = s.ram := rfl
@[simp] theorem State.setI_status (s : State) (w : Word) : (s.setI w).status = s.status := rfl
@[simp] theorem State.setI_randOffer (s : State) (w : Word) : (s.setI w).randOffer = s.randOffer := rfl
@[simp] theorem State.setI_randDraws (s : State) (w : Word) : (s.setI w).randDraws = s.randDraws := rfl

/-! ### `State.setPc` -/

@[simp] theorem State.setPc_v (s : State) (w : Word) : (s.setPc w).v = s.v := rfl
@[simp] theorem State.setPc_i (s : State) (w : Word) : (s.setPc w).i = s.i := rfl
@[simp] theorem State.setPc_pc (s : State) (w : Word) : (s.setPc w).pc = w := rfl
@[simp] theorem State.setPc_sp (s : State) (w : Word) : (s.setPc w).sp = s.sp := rfl
@[simp] theorem State.setPc_stack (s : State) (w : Word) : (s.setPc w).stack = s.stack := rfl
@[simp] theorem State.setPc_dt (s : State) (w : Word) : (s.setPc w).dt = s.dt := rfl
@[simp] theorem State.setPc_st (s : State) (w : Word) : (s.setPc w).st = s.st := rfl
@[simp] theorem State.setPc_key (s : State) (w : Word) : (s.setPc w).key = s.key := rfl
@[simp] theorem State.setPc_fb (s : State) (w : Word) : (s.setPc w).fb = s.fb := rfl
@[simp] theorem State.setPc_ram (s : State) (w : Word) : (s.setPc w).ram = s.ram := rfl
@[simp] theorem State.setPc_status (s : State) (w : Word) : (s.setPc w).status = s.status := rfl
@[simp] theorem State.setPc_randOffer (s : State) (w : Word) : (s.setPc w).randOffer = s.randOffer := rfl
@[simp] theorem State.setPc_randDraws (s : State) (w : Word) : (s.setPc w).randDraws = s.randDraws := rfl

/-! ### `State.setDt` -/

@[simp] theorem State.setDt_v (s : State) (b : Byte) : (s.setDt b).v = s.v := rfl
@[simp] theorem State.setDt_i (s : State) (b : Byte) : (s.setDt b).i = s.i := rfl
@[simp] theorem State.setDt_pc (s : State) (b : Byte) : (s.setDt b).pc = s.pc := rfl
@[simp] theorem State.setDt_sp (s : State) (b : Byte) : (s.setDt b).sp = s.sp := rfl
@[simp] theorem State.setDt_stack (s : State) (b : Byte) : (s.setDt b).stack = s.stack := rfl
@[simp] theorem State.setDt_dt (s : State) (b : Byte) : (s.setDt b).dt = b := rfl
@[simp] theorem State.setDt_st (s : State) (b : Byte) : (s.setDt b).st = s.st := rfl
@[simp] theorem State.setDt_key (s : State) (b : Byte) : (s.setDt b).key = s.key := rfl
@[simp] theorem State.setDt_fb (s : State) (b : Byte) : (s.setDt b).fb = s.fb := rfl
@[simp] theorem State.setDt_ram (s : State) (b : Byte) : (s.setDt b).ram = s.ram := rfl
@[simp] theorem State.setDt_status (s : State) (b : Byte) : (s.setDt b).status = s.status := rfl
@[simp] theorem State.setDt_randOffer (s : State) (b : Byte) : (s.setDt b).randOffer = s.randOffer := rfl
@[simp] theorem State.setDt_randDraws (s : State) (b : Byte) : (s.setDt b).randDraws = s.randDraws := rfl

/-! ### `State.setSt` -/

@[simp] theorem State.setSt_v (s : State) (b : Byte) : (s.setSt b).v = s.v := rfl
@[simp] theorem State.setSt_i (s : State) (b : Byte) : (s.setSt b).i = s.i := rfl
@[simp] theorem State.setSt_pc (s : State) (b : Byte) : (s.setSt b).pc = s.pc := rfl
@[simp] theorem State.setSt_sp (s : State) (b : Byte) : (s.setSt b).sp = s.sp := rfl
@[simp] theorem State.setSt_stack (s : State) (b : Byte) : (s.setSt b).stack = s.stack := rfl
@[simp] theorem State.setSt_dt (s : State) (b : Byte) : (s.setSt b).dt = s.dt := rfl
@[simp] theorem State.setSt_st (s : State) (b : Byte) : (s.setSt b).st = b := rfl
@[simp] theorem State.setSt_key (s : State) (b : Byte) : (s.setSt b).key = s.key := rfl
@[simp] theorem State.setSt_fb (s : State) (b : Byte) : (s.setSt b).fb = s.fb := rfl
@[simp] theorem State.setSt_ram (s : State) (b : Byte) : (s.setSt b).ram = s.ram := rfl
@[simp] theorem State.setSt_status (s : State) (b : Byte) : (s.setSt b).status = s.status := rfl
@[simp] theorem State.setSt_randOffer (s : State) (b : Byte) : (s.setSt b).randOffer = s.randOffer := rfl
@[simp] theorem State.setSt_randDraws (s : State) (b : Byte) : (s.setSt b).randDraws = s.randDraws := rfl

/-! ### `State.setFb` -/

@[simp] theorem State.setFb_v (s : State) (f : Framebuffer) : (s.setFb f).v = s.v := rfl
@[simp] theorem State.setFb_i (s : State) (f : Framebuffer) : (s.setFb f).i = s.i := rfl
@[simp] theorem State.setFb_pc (s : State) (f : Framebuffer) : (s.setFb f).pc = s.pc := rfl
@[simp] theorem State.setFb_sp (s : State) (f : Framebuffer) : (s.setFb f).sp = s.sp := rfl
@[simp] theorem State.setFb_stack (s : State) (f : Framebuffer) : (s.setFb f).stack = s.stack := rfl
@[simp] theorem State.setFb_dt (s : State) (f : Framebuffer) : (s.setFb f).dt = s.dt := rfl
@[simp] theorem State.setFb_st (s : State) (f : Framebuffer) : (s.setFb f).st = s.st := rfl
@[simp] theorem State.setFb_key (s : State) (f : Framebuffer) : (s.setFb f).key = s.key := rfl
@[simp] theorem State.setFb_fb (s : State) (f : Framebuffer) : (s.setFb f).fb = f := rfl
@[simp] theorem State.setFb_ram (s : State) (f : Framebuffer) : (s.setFb f).ram = s.ram := rfl
@[simp] theorem State.setFb_status (s : State) (f : Framebuffer) : (s.setFb f).status = s.status := rfl
@[simp] theorem State.setFb_randOffer (s : State) (f : Framebuffer) : (s.setFb f).randOffer = s.randOffer := rfl
@[simp] theorem State.setFb_randDraws (s : State) (f : Framebuffer) : (s.setFb f).randDraws = s.randDraws := rfl

/-! ### `State.setRam` -/

@[simp] theorem State.setRam_v (s : State) (m : Memory) : (s.setRam m).v = s.v := rfl
@[simp] theorem State.setRam_i (s : State) (m : Memory) : (s.setRam m).i = s.i := rfl
@[simp] theorem State.setRam_pc (s : State) (m : Memory) : (s.setRam m).pc = s.pc := rfl
@[simp] theorem State.setRam_sp (s : State) (m : Memory) : (s.setRam m).sp = s.sp := rfl
@[simp] theorem State.setRam_stack (s : State) (m : Memory) : (s.setRam m).stack = s.stack := rfl
@[simp] theorem State.setRam_dt (s : State) (m : Memory) : (s.setRam m).dt = s.dt := rfl
@[simp] theorem State.setRam_st (s : State) (m : Memory) : (s.setRam m).st = s.st := rfl
@[simp] theorem State.setRam_key (s : State) (m : Memory) : (s.setRam m).key = s.key := rfl
@[simp] theorem State.setRam_fb (s : State) (m : Memory) : (s.setRam m).fb = s.fb := rfl
@[simp] theorem State.setRam_ram (s : State) (m : Memory) : (s.setRam m).ram = m := rfl
@[simp] theorem State.setRam_status (s : State) (m : Memory) : (s.setRam m).status = s.status := rfl
@[simp] theorem State.setRam_randOffer (s : State) (m : Memory) : (s.setRam m).randOffer = s.randOffer := rfl
@[simp] theorem State.setRam_randDraws (s : State) (m : Memory) : (s.setRam m).randDraws = s.randDraws := rfl

/-! ### `State.setStatus` -/

@[simp] theorem State.setStatus_v (s : State) (x : Status) : (s.setStatus x).v = s.v := rfl
@[simp] theorem State.setStatus_i (s : State) (x : Status) : (s.setStatus x).i = s.i := rfl
@[simp] theorem State.setStatus_pc (s : State) (x : Status) : (s.setStatus x).pc = s.pc := rfl
@[simp] theorem State.setStatus_sp (s : State) (x : Status) : (s.setStatus x).sp = s.sp := rfl
@[simp] theorem State.setStatus_stack (s : State) (x : Status) : (s.setStatus x).stack = s.stack := rfl
@[simp] theorem State.setStatus_dt (s : State) (x : Status) : (s.setStatus x).dt = s.dt := rfl
@[simp] theorem State.setStatus_st (s : State) (x : Status) : (s.setStatus x).st = s.st := rfl
@[simp] theorem State.setStatus_key (s : State) (x : Status) : (s.setStatus x).key = s.key := rfl
@[simp] theorem State.setStatus_fb (s : State) (x : Status) : (s.setStatus x).fb = s.fb := rfl
@[simp] theorem State.setStatus_ram (s : State) (x : Status) : (s.setStatus x).ram = s.ram := rfl
@[simp] theorem State.setStatus_status (s : State) (x : Status) : (s.setStatus x).status = x := rfl
@[simp] theorem State.setStatus_randOffer (s : State) (x : Status) : (s.setStatus x).randOffer = s.randOffer := rfl
@[simp] theorem State.setStatus_randDraws (s : State) (x : Status) : (s.setStatus x).randDraws = s.randDraws := rfl

/-! ### `State.setKey` -/

@[simp] theorem State.setKey_v (s : State) (k : Vector Bool 16) : (s.setKey k).v = s.v := rfl
@[simp] theorem State.setKey_i (s : State) (k : Vector Bool 16) : (s.setKey k).i = s.i := rfl
@[simp] theorem State.setKey_pc (s : State) (k : Vector Bool 16) : (s.setKey k).pc = s.pc := rfl
@[simp] theorem State.setKey_sp (s : State) (k : Vector Bool 16) : (s.setKey k).sp = s.sp := rfl
@[simp] theorem State.setKey_stack (s : State) (k : Vector Bool 16) : (s.setKey k).stack = s.stack := rfl
@[simp] theorem State.setKey_dt (s : State) (k : Vector Bool 16) : (s.setKey k).dt = s.dt := rfl
@[simp] theorem State.setKey_st (s : State) (k : Vector Bool 16) : (s.setKey k).st = s.st := rfl
@[simp] theorem State.setKey_key (s : State) (k : Vector Bool 16) : (s.setKey k).key = k := rfl
@[simp] theorem State.setKey_fb (s : State) (k : Vector Bool 16) : (s.setKey k).fb = s.fb := rfl
@[simp] theorem State.setKey_ram (s : State) (k : Vector Bool 16) : (s.setKey k).ram = s.ram := rfl
@[simp] theorem State.setKey_status (s : State) (k : Vector Bool 16) : (s.setKey k).status = s.status := rfl
@[simp] theorem State.setKey_randOffer (s : State) (k : Vector Bool 16) : (s.setKey k).randOffer = s.randOffer := rfl
@[simp] theorem State.setKey_randDraws (s : State) (k : Vector Bool 16) : (s.setKey k).randDraws = s.randDraws := rfl

/-! ### `State.setRandOffer` -/

@[simp] theorem State.setRandOffer_v (s : State) (r : Option Byte) : (s.setRandOffer r).v = s.v := rfl
@[simp] theorem State.setRandOffer_i (s : State) (r : Option Byte) : (s.setRandOffer r).i = s.i := rfl
@[simp] theorem State.setRandOffer_pc (s : State) (r : Option Byte) : (s.setRandOffer r).pc = s.pc := rfl
@[simp] theorem State.setRandOffer_sp (s : State) (r : Option Byte) : (s.setRandOffer r).sp = s.sp := rfl
@[simp] theorem State.setRandOffer_stack (s : State) (r : Option Byte) : (s.setRandOffer r).stack = s.stack := rfl
@[simp] theorem State.setRandOffer_dt (s : State) (r : Option Byte) : (s.setRandOffer r).dt = s.dt := rfl
@[simp] theorem State.setRandOffer_st (s : State) (r : Option Byte) : (s.setRandOffer r).st = s.st := rfl
@[simp] theorem State.setRandOffer_key (s : State) (r : Option Byte) : (s.setRandOffer r).key = s.key := rfl
@[simp] theorem State.setRandOffer_fb (s : State) (r : Option Byte) : (s.setRandOffer r).fb = s.fb := rfl
@[simp] theorem State.setRandOffer_ram (s : State) (r : Option Byte) : (s.setRandOffer r).ram = s.ram := rfl
@[simp] theorem State.setRandOffer_status (s : State) (r : Option Byte) : (s.setRandOffer r).status = s.status := rfl
@[simp] theorem State.setRandOffer_randOffer (s : State) (r : Option Byte) : (s.setRandOffer r).randOffer = r := rfl
@[simp] theorem State.setRandOffer_randDraws (s : State) (r : Option Byte) : (s.setRandOffer r).randDraws = s.randDraws := rfl

/-! ### `State.setStack` -/

@[simp] theorem State.setStack_v (s : State) (j : Fin 16) (w : Word) (p : Byte) : (s.setStack j w p).v = s.v := rfl
@[simp] theorem State.setStack_i (s : State) (j : Fin 16) (w : Word) (p : Byte) : (s.setStack j w p).i = s.i := rfl
@[simp] theorem State.setStack_pc (s : State) (j : Fin 16) (w : Word) (p : Byte) : (s.setStack j w p).pc = s.pc := rfl
@[simp] theorem State.setStack_sp (s : State) (j : Fin 16) (w : Word) (p : Byte) : (s.setStack j w p).sp = p := rfl
@[simp] theorem State.setStack_stack (s : State) (j : Fin 16) (w : Word) (p : Byte) : (s.setStack j w p).stack = s.stack.set j w := rfl
@[simp] theorem State.setStack_dt (s : State) (j : Fin 16) (w : Word) (p : Byte) : (s.setStack j w p).dt = s.dt := rfl
@[simp] theorem State.setStack_st (s : State) (j : Fin 16) (w : Word) (p : Byte) : (s.setStack j w p).st = s.st := rfl
@[simp] theorem State.setStack_key (s : State) (j : Fin 16) (w : Word) (p : Byte) : (s.setStack j w p).key = s.key := rfl
@[simp] theorem State.setStack_fb (s : State) (j : Fin 16) (w : Word) (p : Byte) : (s.setStack j w p).fb = s.fb := rfl
@[simp] theorem State.setStack_ram (s : State) (j : Fin 16) (w : Word) (p : Byte) : (s.setStack j w p).ram = s.ram := rfl
@[simp] theorem State.setStack_status (s : State) (j : Fin 16) (w : Word) (p : Byte) : (s.setStack j w p).status = s.status := rfl
@[simp] theorem State.setStack_randOffer (s : State) (j : Fin 16) (w : Word) (p : Byte) : (s.setStack j w p).randOffer = s.randOffer := rfl
@[simp] theorem State.setStack_randDraws (s : State) (j : Fin 16) (w : Word) (p : Byte) : (s.setStack j w p).randDraws = s.randDraws := rfl

/-! ### `State.setSp` -/

@[simp] theorem State.setSp_v (s : State) (p : Byte) : (s.setSp p).v = s.v := rfl
@[simp] theorem State.setSp_i (s : State) (p : Byte) : (s.setSp p).i = s.i := rfl
@[simp] theorem State.setSp_pc (s : State) (p : Byte) : (s.setSp p).pc = s.pc := rfl
@[simp] theorem State.setSp_sp (s : State) (p : Byte) : (s.setSp p).sp = p := rfl
@[simp] theorem State.setSp_stack (s : State) (p : Byte) : (s.setSp p).stack = s.stack := rfl
@[simp] theorem State.setSp_dt (s : State) (p : Byte) : (s.setSp p).dt = s.dt := rfl
@[simp] theorem State.setSp_st (s : State) (p : Byte) : (s.setSp p).st = s.st := rfl
@[simp] theorem State.setSp_key (s : State) (p : Byte) : (s.setSp p).key = s.key := rfl
@[simp] theorem State.setSp_fb (s : State) (p : Byte) : (s.setSp p).fb = s.fb := rfl
@[simp] theorem State.setSp_ram (s : State) (p : Byte) : (s.setSp p).ram = s.ram := rfl
@[simp] theorem State.setSp_status (s : State) (p : Byte) : (s.setSp p).status = s.status := rfl
@[simp] theorem State.setSp_randOffer (s : State) (p : Byte) : (s.setSp p).randOffer = s.randOffer := rfl
@[simp] theorem State.setSp_randDraws (s : State) (p : Byte) : (s.setSp p).randDraws = s.randDraws := rfl

/-! ### `State.drawn` -/

@[simp] theorem State.drawn_v (s : State) : (s.drawn).v = s.v := rfl
@[simp] theorem State.drawn_i (s : State) : (s.drawn).i = s.i := rfl
@[simp] theorem State.drawn_pc (s : State) : (s.drawn).pc = s.pc := rfl
@[simp] theorem State.drawn_sp (s : State) : (s.drawn).sp = s.sp := rfl
@[simp] theorem State.drawn_stack (s : State) : (s.drawn).stack = s.stack := rfl
@[simp] theorem State.drawn_dt (s : State) : (s.drawn).dt = s.dt := rfl
@[simp] theorem State.drawn_st (s : State) : (s.drawn).st = s.st := rfl
@[simp] theorem State.drawn_key (s : State) : (s.drawn).key = s.key := rfl
@[simp] theorem State.drawn_fb (s : State) : (s.drawn).fb = s.fb := rfl
@[simp] theorem State.drawn_ram (s : State) : (s.drawn).ram = s.ram := rfl
@[simp] theorem State.drawn_status (s : State) : (s.drawn).status = s.status := rfl
@[simp] theorem State.drawn_randOffer (s : State) : (s.drawn).randOffer = s.randOffer := rfl
@[simp] theorem State.drawn_randDraws (s : State) : (s.drawn).randDraws = s.randDraws + 1 := rfl

/-! ### `State.advance` -/

@[simp] theorem State.advance_v (s : State) (k : Word) : (s.advance k).v = s.v := rfl
@[simp] theorem State.advance_i (s : State) (k : Word) : (s.advance k).i = s.i := rfl
@[simp] theorem State.advance_pc (s : State) (k : Word) : (s.advance k).pc = s.pc + k := rfl
@[simp] theorem State.advance_sp (s : State) (k : Word) : (s.advance k).sp = s.sp := rfl
@[simp] theorem State.advance_stack (s : State) (k : Word) : (s.advance k).stack = s.stack := rfl
@[simp] theorem State.advance_dt (s : State) (k : Word) : (s.advance k).dt = s.dt := rfl
@[simp] theorem State.advance_st (s : State) (k : Word) : (s.advance k).st = s.st := rfl
@[simp] theorem State.advance_key (s : State) (k : Word) : (s.advance k).key = s.key := rfl
@[simp] theorem State.advance_fb (s : State) (k : Word) : (s.advance k).fb = s.fb := rfl
@[simp] theorem State.advance_ram (s : State) (k : Word) : (s.advance k).ram = s.ram := rfl
@[simp] theorem State.advance_status (s : State) (k : Word) : (s.advance k).status = s.status := rfl
@[simp] theorem State.advance_randOffer (s : State) (k : Word) : (s.advance k).randOffer = s.randOffer := rfl
@[simp] theorem State.advance_randDraws (s : State) (k : Word) : (s.advance k).randDraws = s.randDraws := rfl

/-! ### Reads of single entries -/

theorem State.ext_fields {s t : State} (h1 : t.v = s.v) (h2 : t.i = s.i) (h3 : t.pc = s.pc) (h4 : t.sp = s.sp)
    (h5 : t.stack = s.stack) (h6 : t.dt = s.dt) (h7 : t.st = s.st) (h8 : t.key = s.key) (h9 : t.fb = s.fb)
    (h10 : t.ram = s.ram) (h11 : t.status = s.status) (h12 : t.randOffer = s.randOffer)
    (h13 : t.randDraws = s.randDraws) : t = s := by
  cases s; cases t; simp_all

theorem State.getV_of_v {s t : State} (h : t.v = s.v) (j : RegIx) : t.getV j = s.getV j := by
  simp only [State.getV, h]

theorem State.stackAt_of_stack {s t : State} (h : t.stack = s.stack) (j : Fin 16) : t.stackAt j = s.stackAt j := by
  simp only [State.stackAt, h]

theorem State.keyAt_of_key {s t : State} (h : t.key = s.key) (k : Fin 16) : t.keyAt k = s.keyAt k := by
  simp only [State.keyAt, h]

/-! ### An entry read after an update of another part -/

@[simp] theorem State.getV_setI (s : State) (w : Word) (j : RegIx) :
    (s.setI w).getV j = s.getV j := rfl
@[simp] theorem State.getV_setPc (s : State) (w : Word) (j : RegIx) :
    (s.setPc w).getV j = s.getV j := rfl
@[simp] theorem State.getV_setDt (s : State) (b : Byte) (j : RegIx) :
    (s.setDt b).getV j = s.getV j := rfl
@[simp] theorem State.getV_setSt (s : State) (b : Byte) (j : RegIx) :
    (s.setSt b).getV j = s.getV j := rfl
@[simp] theorem State.getV_setFb (s : State) (f : Framebuffer) (j : RegIx) :
    (s.setFb f).getV j = s.getV j := rfl
@[simp] theorem State.getV_setRam (s : State) (m : Memory) (j : RegIx) :
    (s.setRam m).getV j = s.getV j := rfl
@[simp] theorem State.getV_setStatus (s : State) (x : Status) (j : RegIx) :
    (s.setStatus x).getV j = s.getV j := rfl
@[simp] theorem State.getV_setKey (s : State) (k : Vector Bool 16) (j : RegIx) :
    (s.setKey k).getV j = s.getV j := rfl
@[simp] theorem State.getV_setRandOffer (s : State) (r : Option Byte) (j : RegIx) :
    (s.setRandOffer r).getV j = s.getV j := rfl
@[simp] theorem State.getV_setStack (s : State) (k : Fin 16) (w : Word) (p : Byte) (j : RegIx) :
    (s.setStack k w p).getV j = s.getV j := rfl
@[simp] theorem State.getV_setSp (s : State) (p : Byte) (j : RegIx) :
    (s.setSp p).getV j = s.getV j := rfl
@[simp] theorem State.getV_advance (s : State) (k : Word) (j : RegIx) :
    (s.advance k).getV j = s.getV j := rfl
@[simp] theorem State.getV_drawn (s : State) (j : RegIx) :
    s.drawn.getV j = s.getV j := rfl

@[simp] theorem State.stackAt_setV (s : State) (x : RegIx) (b : Byte) (j : Fin 16) :
    (s.setV x b).stackAt j = s.stackAt j := rfl
@[simp] theorem State.stackAt_setI (s : State) (w : Word) (j : Fin 16) :
    (s.setI w).stackAt j = s.stackAt j := rfl
@[simp] theorem State.stackAt_setPc (s : State) (w : Word) (j : Fin 16) :
    (s.setPc w).stackAt j = s.stackAt j := rfl
@[simp] theorem State.stackAt_setDt (s : State) (b : Byte) (j : Fin 16) :
    (s.setDt b).stackAt j = s.stackAt j := rfl
@[simp] theorem State.stackAt_setSt (s : State) (b : Byte) (j : Fin 16) :
    (s.setSt b).stackAt j = s.stackAt j := rfl
@[simp] theorem State.stackAt_setFb (s : State) (f : Framebuffer) (j : Fin 16) :
    (s.setFb f).stackAt j = s.stackAt j := rfl
@[simp] theorem State.stackAt_setRam (s : State) (m : Memory) (j : Fin 16) :
    (s.setRam m).stackAt j = s.stackAt j := rfl
@[simp] theorem State.stackAt_setStatus (s : State) (x : Status) (j : Fin 16) :
    (s.setStatus x).stackAt j = s.stackAt j := rfl
@[simp] theorem State.stackAt_setKey (s : State) (k : Vector Bool 16) (j : Fin 16) :
    (s.setKey k).stackAt j = s.stackAt j := rfl
@[simp] theorem State.stackAt_setRandOffer (s : State) (r : Option Byte) (j : Fin 16) :
    (s.setRandOffer r).stackAt j = s.stackAt j := rfl
@[simp] theorem State.stackAt_setSp (s : State) (p : Byte) (j : Fin 16) :
    (s.setSp p).stackAt j = s.stackAt j := rfl
@[simp] theorem State.stackAt_advance (s : State) (k : Word) (j : Fin 16) :
    (s.advance k).stackAt j = s.stackAt j := rfl
@[simp] theorem State.stackAt_drawn (s : State) (j : Fin 16) :
    s.drawn.stackAt j = s.stackAt j := rfl

@[simp] theorem State.keyAt_setV (s : State) (x : RegIx) (b : Byte) (i : Fin 16) :
    (s.setV x b).keyAt i = s.keyAt i := rfl
@[simp] theorem State.keyAt_setI (s : State) (w : Word) (i : Fin 16) :
    (s.setI w).keyAt i = s.keyAt i := rfl
@[simp] theorem State.keyAt_setPc (s : State) (w : Word) (i : Fin 16) :
    (s.setPc w).keyAt i = s.keyAt i := rfl
@[simp] theorem State.keyAt_setDt (s : State) (b : Byte) (i : Fin 16) :
    (s.setDt b).keyAt i = s.keyAt i := rfl
@[simp] theorem State.keyAt_setSt (s : State) (b : Byte) (i : Fin 16) :
    (s.setSt b).keyAt i = s.keyAt i := rfl
@[simp] theorem State.keyAt_setFb (s : State) (f : Framebuffer) (i : Fin 16) :
    (s.setFb f).keyAt i = s.keyAt i := rfl
@[simp] theorem State.keyAt_setRam (s : State) (m : Memory) (i : Fin 16) :
    (s.setRam m).keyAt i = s.keyAt i := rfl
@[simp] theorem State.keyAt_setStatus (s : State) (x : Status) (i : Fin 16) :
    (s.setStatus x).keyAt i = s.keyAt i := rfl
@[simp] theorem State.keyAt_setRandOffer (s : State) (r : Option Byte) (i : Fin 16) :
    (s.setRandOffer r).keyAt i = s.keyAt i := rfl
@[simp] theorem State.keyAt_setStack (s : State) (k : Fin 16) (w : Word) (p : Byte) (i : Fin 16) :
    (s.setStack k w p).keyAt i = s.keyAt i := rfl
@[simp] theorem State.keyAt_setSp (s : State) (p : Byte) (i : Fin 16) :
    (s.setSp p).keyAt i = s.keyAt i := rfl
@[simp] theorem State.keyAt_advance (s : State) (k : Word) (i : Fin 16) :
    (s.advance k).keyAt i = s.keyAt i := rfl
@[simp] theorem State.keyAt_drawn (s : State) (i : Fin 16) :
    s.drawn.keyAt i = s.keyAt i := rfl

/-- The random byte of a step to which the host offers one. -/
@[simp] theorem State.randByte_setRandOffer_some (s : State) (r : Byte) :
    (s.setRandOffer (some r)).randByte = r := rfl

/-- A register after a write: the value written, or what it was. -/
theorem State.getV_setV (s : State) (x j : RegIx) (b : Byte) :
    (s.setV x b).getV j = if j = x then b else s.getV j := by
  simp only [State.getV, State.setV_v, Fin.getElem_fin, Vector.getElem_set, Fin.ext_iff]
  split <;> split <;> first | rfl | omega

@[simp] theorem State.getV_setV_same (s : State) (x : RegIx) (b : Byte) : (s.setV x b).getV x = b := by
  simp [State.getV_setV]

theorem State.getV_setV_ne (s : State) {x j : RegIx} (b : Byte) (h : j ≠ x) : (s.setV x b).getV j = s.getV j := by
  simp [State.getV_setV, h]

/-- A stack entry after a push. -/
theorem State.stackAt_setStack (s : State) (k j : Fin 16) (w : Word) (p : Byte) :
    (s.setStack k w p).stackAt j = if j = k then w else s.stackAt j := by
  simp only [State.stackAt, State.setStack_stack, Fin.getElem_fin, Vector.getElem_set, Fin.ext_iff]
  split <;> split <;> first | rfl | omega

/-- A pixel after a write. -/
theorem Framebuffer.pixel_setPixel (f : Framebuffer) (r r' : Fin 32) (c c' : Fin 64) (p : Bool) :
    Framebuffer.pixel (Framebuffer.setPixel f r c p) r' c' =
      if r' = r ∧ c' = c then p else Framebuffer.pixel f r' c' := by
  simp only [Framebuffer.pixel, Framebuffer.setPixel, Fin.getElem_fin, Vector.getElem_set, Fin.ext_iff]
  by_cases hr : r.val = r'.val
  · by_cases hc : c.val = c'.val
    · simp [hr, hc]
    · simp [hr, hc, Ne.symm hc]
  · simp [hr, Ne.symm hr]

@[simp] theorem Framebuffer.pixel_blank (r : Fin 32) (c : Fin 64) :
    Framebuffer.pixel Framebuffer.blank r c = false := by
  simp [Framebuffer.pixel, Framebuffer.blank]

/-- Two framebuffers with the same pixels are the same. -/
theorem Framebuffer.ext_pixel {f g : Framebuffer}
    (h : ∀ r c, Framebuffer.pixel f r c = Framebuffer.pixel g r c) : f = g := by
  refine Vector.ext fun r hr => Vector.ext fun c hc => ?_
  exact h ⟨r, hr⟩ ⟨c, hc⟩

/-- `is_clear()` is true exactly when every pixel is 0. -/
theorem Framebuffer.isClear_iff (f : Framebuffer) :
    Framebuffer.isClear f = true ↔ ∀ r c, Framebuffer.pixel f r c = false := by
  simp only [Framebuffer.isClear, List.all_eq_true, Bool.not_eq_true', Vector.mem_toList_iff]
  constructor
  · intro h r c
    exact h _ (Vector.getElem_mem r.isLt) _ (Vector.getElem_mem c.isLt)
  · intro h row hrow p hp
    obtain ⟨r, hr, rfl⟩ := Vector.mem_iff_getElem.1 hrow
    obtain ⟨c, hc, rfl⟩ := Vector.mem_iff_getElem.1 hp
    exact h ⟨r, hr⟩ ⟨c, hc⟩

/-- What a skip does: it writes only `PC`. -/
theorem State.skipIf_eq (s : State) (cond : Bool) : s.skipIf cond = s.setPc (s.pc + if cond then 4 else 2) := by
  cases cond <;> rfl

end Sys2Proof.Machine
end

