-- ==== Sys2Proof/Laws/Ops.lean ====
section
/-! SUPPORT. One lemma for each shared operation that says everything it can do. Later proofs cite these and do not
unfold the operations. -/

namespace Sys2Proof.Machine

/-! ### Checks: each either goes on or raises, with nothing written -/

theorem checkRange_ok {a n : Nat} {s : State} {k : StepResult} (h : n = 0 ∨ a + n - 1 ≤ 0xFFF) :
    checkRange a n s k = k := by
  simp [checkRange, firstBadAddr_none.2 h]

theorem checkRange_bad {a n : Nat} {s : State} {k : StepResult} (h : 0 < n ∧ 0xFFF < a + n - 1) :
    checkRange a n s k = raise (.addressOutOfRange s.pc (max a 0x1000)) s := by
  simp [checkRange, firstBadAddr_some.2 ⟨h, rfl⟩]

/-- The range check, all it can do. -/
theorem checkRange_cases {a n : Nat} {s t : State} {k : StepResult} (h : checkRange a n s k = .next t) :
    ((n = 0 ∨ a + n - 1 ≤ 0xFFF) ∧ k = .next t) ∨
      ((0 < n ∧ 0xFFF < a + n - 1) ∧ t = s.setStatus (.halted (.addressOutOfRange s.pc (max a 0x1000)))) := by
  by_cases hr : n = 0 ∨ a + n - 1 ≤ 0xFFF
  · exact .inl ⟨hr, by rwa [checkRange_ok hr] at h⟩
  · have hr' : 0 < n ∧ 0xFFF < a + n - 1 := by omega
    rw [checkRange_bad hr', raise, Host.Outcome.next.injEq] at h
    exact .inr ⟨hr', h.symm⟩

theorem push_full {w : Word} {e : CoreError} {s : State} {k : State → StepResult} (h : s.sp.toNat = 16) :
    push w e s k = raise e s := by
  have hs : s.sp = 16 := BitVec.eq_of_toNat_eq h
  simp [push, hs]

theorem push_room {w : Word} {e : CoreError} {s : State} {k : State → StepResult} (h : s.sp.toNat < 16) :
    push w e s k = k (s.setStack ⟨s.sp.toNat, h⟩ w (s.sp + 1)) := by
  have hs : s.sp ≠ 16 := fun hs => by simp [hs] at h
  rw [push, if_neg hs, dif_pos h]

theorem push_illegal {w : Word} {e : CoreError} {s : State} {k : State → StepResult} (h : 16 < s.sp.toNat) :
    push w e s k = .fault .illegalStackPointer := by
  have hs : s.sp ≠ 16 := fun hs => by simp [hs] at h
  rw [push, if_neg hs, dif_neg (by omega)]

/-- `Push`, all it can do. -/
theorem push_cases {w : Word} {e : CoreError} {s t : State} {k : State → StepResult} (h : push w e s k = .next t) :
    (s.sp.toNat = 16 ∧ t = s.setStatus (.halted e)) ∨
      ∃ hs : s.sp.toNat < 16, k (s.setStack ⟨s.sp.toNat, hs⟩ w (s.sp + 1)) = .next t := by
  rcases Nat.lt_trichotomy s.sp.toNat 16 with hs | hs | hs
  · exact .inr ⟨hs, by rwa [push_room hs] at h⟩
  · rw [push_full hs, raise, Host.Outcome.next.injEq] at h
    exact .inl ⟨hs, h.symm⟩
  · simp [push_illegal hs] at h

theorem pop_empty {e : CoreError} {s : State} {k : Word → State → StepResult} (h : s.sp.toNat = 0) :
    pop e s k = raise e s := by
  have hs : s.sp = 0 := BitVec.eq_of_toNat_eq h
  simp [pop, hs]

theorem pop_some {e : CoreError} {s : State} {k : Word → State → StepResult} (h : 0 < s.sp.toNat)
    (h' : s.sp.toNat - 1 < 16) : pop e s k = k (s.stackAt ⟨s.sp.toNat - 1, h'⟩) (s.setSp (s.sp - 1)) := by
  have hs : s.sp ≠ 0 := fun hs => by simp [hs] at h
  rw [pop, if_neg hs, dif_pos h']

theorem pop_illegal {e : CoreError} {s : State} {k : Word → State → StepResult} (h : 16 < s.sp.toNat) :
    pop e s k = .fault .illegalStackPointer := by
  have hs : s.sp ≠ 0 := fun hs => by simp [hs] at h
  rw [pop, if_neg hs, dif_neg (by omega)]

/-- `Pop`, all it can do. -/
theorem pop_cases {e : CoreError} {s t : State} {k : Word → State → StepResult} (h : pop e s k = .next t) :
    (s.sp.toNat = 0 ∧ t = s.setStatus (.halted e)) ∨
      (0 < s.sp.toNat ∧
        ∃ hs : s.sp.toNat - 1 < 16, k (s.stackAt ⟨s.sp.toNat - 1, hs⟩) (s.setSp (s.sp - 1)) = .next t) := by
  by_cases h0 : s.sp.toNat = 0
  · rw [pop_empty h0, raise, Host.Outcome.next.injEq] at h
    exact .inl ⟨h0, h.symm⟩
  · by_cases h1 : s.sp.toNat - 1 < 16
    · exact .inr ⟨by omega, h1, by rwa [pop_some (by omega) h1] at h⟩
    · simp [pop_illegal (show 16 < s.sp.toNat by omega)] at h

theorem checkKey_ok {b : Byte} {s : State} {k : Bool → StepResult} (h : b.toNat < 16) :
    checkKey b s k = k (s.keyAt ⟨b.toNat, h⟩) := by
  simp [checkKey, h]

theorem checkKey_bad {b : Byte} {s : State} {k : Bool → StepResult} (h : 15 < b.toNat) :
    checkKey b s k = raise (.keyOutOfRange s.pc b) s := by
  have hn : ¬(b.toNat < 16) := by omega
  simp [checkKey, hn]

/-- The key check, all it can do. -/
theorem checkKey_cases {b : Byte} {s t : State} {k : Bool → StepResult} (h : checkKey b s k = .next t) :
    (∃ hb : b.toNat < 16, k (s.keyAt ⟨b.toNat, hb⟩) = .next t) ∨
      (15 < b.toNat ∧ t = s.setStatus (.halted (.keyOutOfRange s.pc b))) := by
  by_cases hb : b.toNat < 16
  · exact .inl ⟨hb, by rwa [checkKey_ok hb] at h⟩
  · rw [checkKey_bad (by omega), raise, Host.Outcome.next.injEq] at h
    exact .inr ⟨by omega, h.symm⟩

theorem keyScan_sorted : keyScan.Pairwise (· < ·) := by decide

theorem mem_keyScan : ∀ k, k ∈ keyScan := by decide

/-- One scan of the keypad finds a pressed key that has no pressed key below it (R233), ... -/
theorem State.pressedKey_some {s : State} {k : Fin 16} (h : s.pressedKey = some k) :
    s.keyAt k = true ∧ ∀ j, j < k → s.keyAt j = false := by
  obtain ⟨hk, as, bs, hs, has⟩ := List.find?_eq_some_iff_append.1 h
  refine ⟨hk, fun j hj => ?_⟩
  have hp := hs ▸ keyScan_sorted
  rcases List.mem_append.1 (hs ▸ mem_keyScan j) with hm | hm
  · simpa using has j hm
  · rcases List.mem_cons.1 hm with rfl | hm
    · exact absurd hj (lt_irrefl _)
    · exact absurd hj (not_lt.2 (List.rel_of_pairwise_cons (List.pairwise_append.1 hp).2.1 hm).le)

/-- ... or there is none. -/
theorem State.pressedKey_none {s : State} : s.pressedKey = none ↔ ∀ j, s.keyAt j = false := by
  rw [State.pressedKey, List.find?_eq_none]
  exact ⟨fun h j => by simpa using h j (mem_keyScan j), fun h j _ => by simp [h j]⟩

/-! ### Writes of several registers -/

/-- `V0..Vx` as a list, by its entries. -/
theorem State.getElem_regsUpTo (s : State) (x j : RegIx) (h : j.val < (s.regsUpTo x).length) :
    (s.regsUpTo x)[j.val] = s.getV j := by
  simp [State.regsUpTo, State.getV]

@[simp] theorem State.length_regsUpTo (s : State) (x : RegIx) : (s.regsUpTo x).length = x.val + 1 := by
  simp [State.regsUpTo, regCount]

/-- A run of register writes touches nothing but the registers. -/
theorem State.setRegsFrom_eq (bs : List Byte) (s : State) (k : Nat) :
    s.setRegsFrom k bs = { s with v := (s.setRegsFrom k bs).v } := by
  induction bs generalizing s k with
  | nil => rfl
  | cons b bs ih =>
    rw [State.setRegsFrom, ih]
    rfl

/-- A register after a run of register writes. -/
theorem State.getV_setRegsFrom (bs : List Byte) (s : State) (k : Nat) (hk : k + bs.length ≤ 16) (j : RegIx) :
    (s.setRegsFrom k bs).getV j =
      if h : k ≤ j.val ∧ j.val - k < bs.length then bs[j.val - k]'h.2 else s.getV j := by
  induction bs generalizing s k with
  | nil => simp [State.setRegsFrom]
  | cons b bs ih =>
    simp only [List.length_cons] at hk
    rw [State.setRegsFrom, ih _ _ (by omega), State.getV_setV]
    simp only [Fin.ext_iff, Fin.val_ofNat, Nat.mod_eq_of_lt (show k < 16 by omega), List.length_cons]
    by_cases hj : j.val = k
    · simp [hj]
    · by_cases h1 : k + 1 ≤ j.val ∧ j.val - (k + 1) < bs.length
      · rw [dif_pos h1, dif_pos (by omega)]
        have h3 : j.val - k = (j.val - (k + 1)) + 1 := by omega
        simp only [h3, List.getElem_cons_succ]
      · rw [dif_neg h1, dif_neg (by omega), if_neg hj]

/-! ### The arms of `exec` -/

theorem exec_cls (s : State) : exec .cls s = execCls s := rfl

theorem exec_ret (s : State) : exec .ret s = execRet s := rfl

theorem exec_sys (nnn : Addr12) (s : State) : exec (.sys nnn) s = execSys nnn s := rfl

theorem exec_jmp (nnn : Addr12) (s : State) : exec (.jmp nnn) s = execJmp nnn s := rfl

theorem exec_call (nnn : Addr12) (s : State) : exec (.call nnn) s = execCall nnn s := rfl

theorem exec_seByte (x : RegIx) (kk : Byte) (s : State) : exec (.seByte x kk) s = execSeByte x kk s := rfl

theorem exec_sneByte (x : RegIx) (kk : Byte) (s : State) : exec (.sneByte x kk) s = execSneByte x kk s := rfl

theorem exec_seReg (x y : RegIx) (n : Nibble) (s : State) : exec (.seReg x y n) s = execSeReg x y n s := rfl

theorem exec_ldByte (x : RegIx) (kk : Byte) (s : State) : exec (.ldByte x kk) s = execLdByte x kk s := rfl

theorem exec_addByte (x : RegIx) (kk : Byte) (s : State) : exec (.addByte x kk) s = execAddByte x kk s := rfl

theorem exec_ldReg (x y : RegIx) (s : State) : exec (.ldReg x y) s = execLdReg x y s := rfl

theorem exec_orReg (x y : RegIx) (s : State) : exec (.orReg x y) s = execOrReg x y s := rfl

theorem exec_andReg (x y : RegIx) (s : State) : exec (.andReg x y) s = execAndReg x y s := rfl

theorem exec_xorReg (x y : RegIx) (s : State) : exec (.xorReg x y) s = execXorReg x y s := rfl

theorem exec_addReg (x y : RegIx) (s : State) : exec (.addReg x y) s = execAddReg x y s := rfl

theorem exec_subReg (x y : RegIx) (s : State) : exec (.subReg x y) s = execSubReg x y s := rfl

theorem exec_shr (x y : RegIx) (s : State) : exec (.shr x y) s = execShr x y s := rfl

theorem exec_subnReg (x y : RegIx) (s : State) : exec (.subnReg x y) s = execSubnReg x y s := rfl

theorem exec_shl (x y : RegIx) (s : State) : exec (.shl x y) s = execShl x y s := rfl

theorem exec_sneReg (x y : RegIx) (n : Nibble) (s : State) : exec (.sneReg x y n) s = execSneReg x y n s := rfl

theorem exec_ldI (nnn : Addr12) (s : State) : exec (.ldI nnn) s = execLdI nnn s := rfl

theorem exec_jpV0 (nnn : Addr12) (s : State) : exec (.jpV0 nnn) s = execJpV0 nnn s := rfl

theorem exec_rnd (x : RegIx) (kk : Byte) (s : State) : exec (.rnd x kk) s = execRnd x kk s := rfl

theorem exec_drw (x y : RegIx) (n : Nibble) (s : State) : exec (.drw x y n) s = execDrw x y n s := rfl

theorem exec_skp (x : RegIx) (s : State) : exec (.skp x) s = execSkp x s := rfl

theorem exec_sknp (x : RegIx) (s : State) : exec (.sknp x) s = execSknp x s := rfl

theorem exec_ldVxDT (x : RegIx) (s : State) : exec (.ldVxDT x) s = execLdVxDT x s := rfl

theorem exec_ldVxK (x : RegIx) (s : State) : exec (.ldVxK x) s = execLdVxK x s := rfl

theorem exec_ldDTVx (x : RegIx) (s : State) : exec (.ldDTVx x) s = execLdDTVx x s := rfl

theorem exec_ldSTVx (x : RegIx) (s : State) : exec (.ldSTVx x) s = execLdSTVx x s := rfl

theorem exec_addI (x : RegIx) (s : State) : exec (.addI x) s = execAddI x s := rfl

theorem exec_ldF (x : RegIx) (s : State) : exec (.ldF x) s = execLdF x s := rfl

theorem exec_ldB (x : RegIx) (s : State) : exec (.ldB x) s = execLdB x s := rfl

theorem exec_stRegs (x : RegIx) (s : State) : exec (.stRegs x) s = execStRegs x s := rfl

theorem exec_ldRegs (x : RegIx) (s : State) : exec (.ldRegs x) s = execLdRegs x s := rfl

theorem exec_unknown (op : Word) (s : State) : exec (.unknown op) s = execUnknown op s := rfl

/-! ### The step -/

theorem step_halted {s : State} {e : CoreError} (h : s.status = .halted e) : step s = .next s := by
  simp [step, h]

theorem step_running {s : State} (h : s.status = .running) :
    step s = checkRange s.pc.toNat 2 s (exec (decode s.fetchWord) s) := by
  simp [step, fetch, h]

/-- A step, all it can do: nothing in a halted core, a fetch error, or the instruction at `PC`. -/
theorem step_cases {s t : State} (h : step s = .next t) :
    ((∃ e, s.status = .halted e) ∧ t = s) ∨
      (s.status = .running ∧ 0xFFF < s.pc.toNat + 1 ∧
        t = s.setStatus (.halted (.addressOutOfRange s.pc (max s.pc.toNat 0x1000)))) ∨
      (s.status = .running ∧ s.pc.toNat + 1 ≤ 0xFFF ∧ exec (decode s.fetchWord) s = .next t) := by
  cases hs : s.status with
  | halted e =>
    rw [step_halted hs, Host.Outcome.next.injEq] at h
    exact .inl ⟨⟨e, rfl⟩, h.symm⟩
  | running =>
    rw [step_running hs] at h
    rcases checkRange_cases h with ⟨hr, hk⟩ | ⟨hr, ht⟩
    · exact .inr (.inr ⟨rfl, by omega, hk⟩)
    · exact .inr (.inl ⟨rfl, by omega, ht⟩)

end Sys2Proof.Machine
end

