-- ==== Sys2Proof/Laws/PerInstr.lean ====
section
/-! SUPPORT. The family RoundTrip of LAWS.json: for each constructor, decoding the word of a well-formed instruction
gives the instruction back, with every operand. -/

namespace Sys2Proof.Laws.RoundTrip

/-- The statement of the family. -/
def Statement (i : Instr) : Prop := i.wf = true → decode (encode i) = i

theorem cls : Statement .cls := fun _ => by decide

theorem ret : Statement .ret := fun _ => by decide

theorem sys (nnn : Addr12) : Statement (.sys nnn) := fun h => by
  have h1 : wordA 0x0 nnn ≠ 0x00E0 := fun he => by
    have hn := congrArg BitVec.toNat he
    rw [toNat_wordA] at hn
    have : nnn = 0x0E0 := BitVec.eq_of_toNat_eq (by simpa using hn)
    simp [Instr.wf, this] at h
  have h2 : wordA 0x0 nnn ≠ 0x00EE := fun he => by
    have hn := congrArg BitVec.toNat he
    rw [toNat_wordA] at hn
    have : nnn = 0x0EE := BitVec.eq_of_toNat_eq (by simpa using hn)
    simp [Instr.wf, this] at h
  show decode (wordA 0x0 nnn) = _
  rw [decode, family_wordA]
  show decode0 _ = _
  rw [decode0, if_neg h1, if_neg h2, fieldNNN_wordA]

theorem jmp (nnn : Addr12) : Statement (.jmp nnn) := fun _ => by simp [encode, decode]

theorem call (nnn : Addr12) : Statement (.call nnn) := fun _ => by simp [encode, decode]

theorem seByte (x : RegIx) (kk : Byte) : Statement (.seByte x kk) := fun _ => by simp [encode, decode]

theorem sneByte (x : RegIx) (kk : Byte) : Statement (.sneByte x kk) := fun _ => by simp [encode, decode]

theorem seReg (x y : RegIx) (n : Nibble) : Statement (.seReg x y n) := fun _ => by simp [encode, decode]

theorem ldByte (x : RegIx) (kk : Byte) : Statement (.ldByte x kk) := fun _ => by simp [encode, decode]

theorem addByte (x : RegIx) (kk : Byte) : Statement (.addByte x kk) := fun _ => by simp [encode, decode]

theorem ldReg (x y : RegIx) : Statement (.ldReg x y) := fun _ => by simp [encode, decode, decode8]

theorem orReg (x y : RegIx) : Statement (.orReg x y) := fun _ => by simp [encode, decode, decode8]

theorem andReg (x y : RegIx) : Statement (.andReg x y) := fun _ => by simp [encode, decode, decode8]

theorem xorReg (x y : RegIx) : Statement (.xorReg x y) := fun _ => by simp [encode, decode, decode8]

theorem addReg (x y : RegIx) : Statement (.addReg x y) := fun _ => by simp [encode, decode, decode8]

theorem subReg (x y : RegIx) : Statement (.subReg x y) := fun _ => by simp [encode, decode, decode8]

theorem shr (x y : RegIx) : Statement (.shr x y) := fun _ => by simp [encode, decode, decode8]

theorem subnReg (x y : RegIx) : Statement (.subnReg x y) := fun _ => by simp [encode, decode, decode8]

theorem shl (x y : RegIx) : Statement (.shl x y) := fun _ => by simp [encode, decode, decode8]

theorem sneReg (x y : RegIx) (n : Nibble) : Statement (.sneReg x y n) := fun _ => by simp [encode, decode]

theorem ldI (nnn : Addr12) : Statement (.ldI nnn) := fun _ => by simp [encode, decode]

theorem jpV0 (nnn : Addr12) : Statement (.jpV0 nnn) := fun _ => by simp [encode, decode]

theorem rnd (x : RegIx) (kk : Byte) : Statement (.rnd x kk) := fun _ => by simp [encode, decode]

theorem drw (x y : RegIx) (n : Nibble) : Statement (.drw x y n) := fun _ => by simp [encode, decode]

theorem skp (x : RegIx) : Statement (.skp x) := fun _ => by simp [encode, decode, decodeE]

theorem sknp (x : RegIx) : Statement (.sknp x) := fun _ => by simp [encode, decode, decodeE]

theorem ldVxDT (x : RegIx) : Statement (.ldVxDT x) := fun _ => by simp [encode, decode, decodeF]

theorem ldVxK (x : RegIx) : Statement (.ldVxK x) := fun _ => by simp [encode, decode, decodeF]

theorem ldDTVx (x : RegIx) : Statement (.ldDTVx x) := fun _ => by simp [encode, decode, decodeF]

theorem ldSTVx (x : RegIx) : Statement (.ldSTVx x) := fun _ => by simp [encode, decode, decodeF]

theorem addI (x : RegIx) : Statement (.addI x) := fun _ => by simp [encode, decode, decodeF]

theorem ldF (x : RegIx) : Statement (.ldF x) := fun _ => by simp [encode, decode, decodeF]

theorem ldB (x : RegIx) : Statement (.ldB x) := fun _ => by simp [encode, decode, decodeF]

theorem stRegs (x : RegIx) : Statement (.stRegs x) := fun _ => by simp [encode, decode, decodeF]

theorem ldRegs (x : RegIx) : Statement (.ldRegs x) := fun _ => by simp [encode, decode, decodeF]

theorem unknown (op : Word) : Statement (.unknown op) := fun h => decode_of_isUnknownWord h

end Sys2Proof.Laws.RoundTrip
end

