-- ==== Sys2Proof/Laws/Values.lean ====
section
/-! SUPPORT. What the operand forms, flags and shared endings compute, as numbers and as register reads: the lemmas the
statements about single instructions are proved from. -/

namespace Sys2Proof.Machine

/-! ### Operands -/

@[simp] theorem toNat_addrImm (nnn : Addr12) : (addrImm nnn).toNat = nnn.toNat := by
  have := nnn.isLt
  simp only [addrImm, BitVec.toNat_setWidth]
  omega

@[simp] theorem toNat_byteImm (b : Byte) : (byteImm b).toNat = b.toNat := by
  have := b.isLt
  simp only [byteImm, BitVec.toNat_setWidth]
  omega

@[simp] theorem length_bcdDigits (b : Byte) : (bcdDigits b).length = 3 := rfl

/-! ### Flags -/

@[simp] theorem toNat_flagByte (c : Bool) : (flagByte c).toNat = if c then 1 else 0 := by
  cases c <;> rfl

/-- A result and a flag: VF holds the flag, and `Vx` the result unless it is VF (R160). -/
theorem State.getV_setResultFlag (s : State) (x j : RegIx) (r f : Byte) :
    (s.setResultFlag x r f).getV j = if j = vf then f else if j = x then r else s.getV j := by
  rw [State.setResultFlag, State.setFlag, State.getV_setV, State.getV_setV]

/-- A timer's decrement as a number. -/
@[simp] theorem toNat_countDown (b : Byte) : (countDown b).toNat = b.toNat - 1 := by
  unfold countDown
  split
  · subst_vars; rfl
  · rename_i h
    have h1 : b.toNat ≠ 0 := fun h0 => h (BitVec.eq_of_toNat_eq h0)
    have h2 : (1 : Byte) ≤ b := by
      rw [BitVec.le_def]
      exact Nat.one_le_iff_ne_zero.2 h1
    rw [BitVec.toNat_sub_of_le h2]
    rfl

/-! ### The store that ends LD B and LD [I] -/

/-- The store at `I`, all it can do. -/
theorem storeAtI_cases {bs : List Byte} {s t : State} (h : storeAtI bs s = .next t) :
    ((bs.length = 0 ∨ s.base + bs.length - 1 ≤ 0xFFF) ∧
        t = (s.setRam (s.ram.writeList s.base bs)).advance 2) ∨
      ((0 < bs.length ∧ 0xFFF < s.base + bs.length - 1) ∧
        t = s.setStatus (.halted (.addressOutOfRange s.pc (max s.base 0x1000)))) := by
  rcases checkRange_cases h with ⟨h1, h2⟩ | h1
  · exact .inl ⟨h1, (Host.Outcome.next.inj h2).symm⟩
  · exact .inr h1

/-! ### Pixels of the blit -/

/-- One pixel of the blit flips its pixel when the sprite bit is 1 (R211). -/
theorem pixel_blitPixel (acc : Framebuffer × Bool) (r r' : Fin 32) (c c' : Fin 64) (bit : Bool) :
    Framebuffer.pixel (blitPixel acc r c bit).1 r' c' =
      (Framebuffer.pixel acc.1 r' c').xor (bit && decide (r' = r ∧ c' = c)) := by
  unfold blitPixel
  cases bit
  · simp
  · simp only [if_true, Framebuffer.pixel_setPixel]
    by_cases h : r' = r ∧ c' = c
    · simp [h.1, h.2]
    · simp [h]

/-- One pixel of the blit collides when the sprite bit and the old pixel are 1 (R213). -/
theorem collision_blitPixel (acc : Framebuffer × Bool) (r : Fin 32) (c : Fin 64) (bit : Bool) :
    (blitPixel acc r c bit).2 = (acc.2 || (bit && Framebuffer.pixel acc.1 r c)) := by
  unfold blitPixel collides
  cases bit <;> simp

/-! ### The patterns of the opcode map -/

theorem patNNN_eq (f : BitVec 4) (nnn : Addr12) : patNNN f.toNat nnn = wordA f nnn := by
  apply BitVec.eq_of_toNat_eq
  have := f.isLt; have := nnn.isLt
  rw [toNat_wordA, patNNN, BitVec.toNat_ofNat]
  omega

theorem patXKK_eq (f : BitVec 4) (x : RegIx) (kk : Byte) : patXKK f.toNat x kk = wordXK f x kk := by
  apply BitVec.eq_of_toNat_eq
  have := f.isLt; have := x.isLt; have := kk.isLt
  rw [toNat_wordXK, patXKK, BitVec.toNat_ofNat]
  omega

theorem patXYN_eq (f : BitVec 4) (x y : RegIx) (n : Nibble) : patXYN f.toNat x y n = wordXY f x y n := by
  apply BitVec.eq_of_toNat_eq
  have := f.isLt; have := x.isLt; have := y.isLt; have := n.isLt
  rw [toNat_wordXY, patXYN, BitVec.toNat_ofNat]
  omega

/-- The word that lies at `PC` is the one the step fetches. -/
theorem OpcodeAt.fetchWord_eq {s : State} {op : Word} (h : OpcodeAt s op) : s.fetchWord = op := by
  apply BitVec.eq_of_toNat_eq
  rw [State.fetchWord, toNat_opcodeOf, h.2]

end Sys2Proof.Machine
end

