-- ==== Sys2Proof/Tests/Slice0.lean ====
section
/-! SUPPORT. The model's own tests: WellFormed refuses ill-formed terms; every constructor's decoding from a word written
out from R110; single steps with the values of spec/95_test_vectors.md; and a witness for the hypotheses of each
statement of Certificates/Slice0/Obligations.lean. -/

namespace Sys2Proof.Tests

open Sys2Proof.Machine

/-! ### WellFormed -/

theorem test_sys_of_cls_word_refused : (Instr.sys 0x0E0).wf = false := by decide
theorem test_sys_of_ret_word_refused : (Instr.sys 0x0EE).wf = false := by decide
theorem test_unknown_of_family_0_refused : (Instr.unknown 0x00E0).wf = false := by decide
theorem test_unknown_of_family_8_refused : (Instr.unknown 0x8AB4).wf = false := by decide
theorem test_unknown_of_family_E_refused : (Instr.unknown 0xE09E).wf = false := by decide
theorem test_unknown_of_family_F_refused : (Instr.unknown 0xF055).wf = false := by decide

/-! ### Decode: one word per constructor, from the patterns of R110 -/

theorem test_decode_flow : [0x00E0, 0x00EE, 0x0345, 0x1ABC, 0x2ABC, 0xB300].map decode =
    [.cls, .ret, .sys 0x345, .jmp 0xABC, .call 0xABC, .jpV0 0x300] := by decide

theorem test_decode_skips : [0x31AA, 0x4206, 0x5340, 0x5121, 0x9340, 0x912F].map decode =
    [.seByte 1 0xAA, .sneByte 2 0x06, .seReg 3 4 0, .seReg 1 2 1, .sneReg 3 4 0, .sneReg 1 2 0xF] := by decide

theorem test_decode_loads : [0x6A9C, 0x7101, 0x8120, 0xC30F].map decode =
    [.ldByte 0xA 0x9C, .addByte 1 0x01, .ldReg 1 2, .rnd 3 0x0F] := by decide

theorem test_decode_alu : [0x8121, 0x8122, 0x8123, 0x8124, 0x8125, 0x8106, 0x8127, 0x810E].map decode =
    [.orReg 1 2, .andReg 1 2, .xorReg 1 2, .addReg 1 2, .subReg 1 2, .shr 1 0, .subnReg 1 2, .shl 1 0] := by decide

theorem test_decode_index : [0xA300, 0xF21E, 0xF029, 0xFA33, 0xF155, 0xF265, 0xD125].map decode =
    [.ldI 0x300, .addI 2, .ldF 0, .ldB 0xA, .stRegs 1, .ldRegs 2, .drw 1 2 5] := by decide

theorem test_decode_keys : [0xE59E, 0xE5A1, 0xF107, 0xF00A, 0xF015, 0xF218].map decode =
    [.skp 5, .sknp 5, .ldVxDT 1, .ldVxK 0, .ldDTVx 0, .ldSTVx 2] := by decide

/-- V1 to V5, V7, V8: words of no instruction, and the words D16 keeps apart from CLS. -/
theorem test_decode_unknown : [0x8008, 0xE000, 0xF000, 0xFFFF, 0x800F, 0x01E0, 0x00E1].map decode =
    [.unknown 0x8008, .unknown 0xE000, .unknown 0xF000, .unknown 0xFFFF, .unknown 0x800F, .sys 0x1E0,
      .sys 0x0E1] := by decide

/-- The host's numbering: one 16-bit word, the number itself. -/
theorem test_table_word : decodeTableWord 16 0x8124 = some (.addReg 1 2) := by decide

/-! ### Single steps, with the values of spec/95_test_vectors.md -/

/-- Something of the state a step answers. -/
def after {α : Type} (f : State → α) : StepResult → Option α
  | .next t => some (f t)
  | .fault _ => none
  | .refused _ => none

/-- The step of a word at `PC` in the state after reset, changed as the vector says. -/
def stepOf (op : Nat) (start : State → State) : StepResult := step ((start State.reset).withFetchWord 16 op)

/-- V82, V89, V96: an error as `STATUS` shows it. -/
def errorOf : StepResult → Option Status := after State.status

/-- W3. -/
theorem test_call : after (fun t => (t.pc, t.sp, t.stackAt 0)) (stepOf 0x2ABC (·.setPc 0xAAA)) =
    some (0xABC, 1, 0xAAA) := by decide
/-- V25. -/
theorem test_call_overflow : errorOf (stepOf 0x2400 (·.setSp 16)) =
    some (.halted (.stackOverflow 0x200 0x400)) := by decide
/-- V21. -/
theorem test_ret : after (fun t => (t.pc, t.sp, t.stackAt 1)) (stepOf 0x00EE fun s => (s.setPc 0x300).setStack 1 0x456 2) =
    some (0x458, 1, 0x456) := by decide
/-- V20. -/
theorem test_ret_underflow : errorOf (stepOf 0x00EE id) = some (.halted (.stackUnderflow 0x200)) := by decide
/-- V22. -/
theorem test_sys : after State.pc (stepOf 0x0345 id) = some 0x345 := by decide
/-- V11. -/
theorem test_jmp_at_last_word : after State.pc (stepOf 0x1FFE (·.setPc 0xFFE)) = some 0xFFE := by decide
/-- V27. -/
theorem test_jpV0 : after State.pc (stepOf 0xBFFF (·.setV 0 0xFF)) = some 0x10FE := by decide
/-- W6. -/
theorem test_seByte : after State.pc (stepOf 0x31AA fun s => (s.setPc 0x202).setV 1 0xAA) = some 0x206 := by decide
/-- V30. -/
theorem test_sneByte : after State.pc (stepOf 0x4342 (·.setV 3 0x42)) = some 0x202 := by decide
/-- V9. -/
theorem test_seReg : after State.pc (stepOf 0x5121 fun s => (s.setV 1 7).setV 2 7) = some 0x204 := by decide
/-- V10. -/
theorem test_sneReg : after State.pc (stepOf 0x912F fun s => (s.setV 1 7).setV 2 8) = some 0x204 := by decide
/-- V40. -/
theorem test_ldByte : after (·.getV 0xA) (stepOf 0x6A9C id) = some 0x9C := by decide
/-- V41. -/
theorem test_addByte : after (fun t => (t.getV 1, t.getV 15)) (stepOf 0x7101 (·.setV 1 0xFF)) = some (0, 0) := by decide
/-- V43. -/
theorem test_ldReg : after (·.getV 1) (stepOf 0x8120 (·.setV 2 0x33)) = some 0x33 := by decide
/-- V44. -/
theorem test_or : after (fun t => (t.getV 1, t.getV 15))
    (stepOf 0x8121 fun s => ((s.setV 1 0x0F).setV 2 0xF0).setV 15 1) = some (0xFF, 1) := by decide
/-- V45. -/
theorem test_and : after (fun t => (t.getV 1, t.getV 15))
    (stepOf 0x8122 fun s => ((s.setV 1 0x3C).setV 2 0x0F).setV 15 1) = some (0x0C, 1) := by decide
/-- R166. -/
theorem test_xor : after (·.getV 1) (stepOf 0x8123 fun s => (s.setV 1 0xFF).setV 2 0x0F) = some 0xF0 := by decide
/-- V47. -/
theorem test_add_255 : after (fun t => (t.getV 1, t.getV 15)) (stepOf 0x8124 fun s => (s.setV 1 0x80).setV 2 0x7F) =
    some (0, 0) := by decide
/-- W7. -/
theorem test_add_495 : after (fun t => (t.getV 0, t.getV 15)) (stepOf 0x8014 fun s => (s.setV 0 0xFF).setV 1 0xF0) =
    some (0xF0, 1) := by decide
/-- V54. -/
theorem test_sub_equal : after (fun t => (t.getV 1, t.getV 15)) (stepOf 0x8125 fun s => (s.setV 1 5).setV 2 5) =
    some (0, 0) := by decide
/-- V56. -/
theorem test_sub_into_vf : after (·.getV 15) (stepOf 0x8F15 fun s => (s.setV 15 5).setV 1 3) = some 1 := by decide
/-- V58. -/
theorem test_shr_ignores_y : after (fun t => (t.getV 1, t.getV 15)) (stepOf 0x8126 fun s => (s.setV 1 4).setV 2 0xFF) =
    some (2, 0) := by decide
/-- V61. -/
theorem test_subn : after (fun t => (t.getV 1, t.getV 15)) (stepOf 0x8127 fun s => (s.setV 1 5).setV 2 3) =
    some (0xFE, 0) := by decide
/-- V63. -/
theorem test_shl : after (fun t => (t.getV 1, t.getV 15)) (stepOf 0x810E (·.setV 1 0x81)) = some (2, 1) := by decide
/-- V67. -/
theorem test_rnd : after (·.getV 3) (stepOf 0xC30F (·.setRandOffer (some 0xA7))) = some 0x07 := by decide
/-- V70. -/
theorem test_ldI : after State.i (stepOf 0xA123 id) = some 0x123 := by decide
/-- V72. -/
theorem test_addI : after State.i (stepOf 0xF21E fun s => (s.setI 0xFFF).setV 2 1) = some 0x1000 := by decide
/-- V77. -/
theorem test_ldF : after State.i (stepOf 0xF029 (·.setV 0 0xFF)) = some 0x4FB := by decide
/-- V78. -/
theorem test_ldB : after (·.ram.readList 0x300 3) (stepOf 0xFA33 fun s => (s.setI 0x300).setV 0xA 0x9C) =
    some [1, 5, 6] := by decide
/-- V82. -/
theorem test_ldB_out_of_range : after (fun t => (t.status, t.ram.read 0xFFE)) (stepOf 0xFA33 fun s => (s.setI 0xFFE).setV 0xA 7) =
    some (.halted (.addressOutOfRange 0x200 0x1000), 0) := by decide
/-- V83. -/
theorem test_stRegs : after (fun t => (t.ram.readList 0x400 3, t.i))
    (stepOf 0xF155 fun s => ((s.setI 0x400).setV 0 0x11).setV 1 0x22) = some ([0x11, 0x22, 0], 0x400) := by decide
/-- V86. -/
theorem test_stRegs_out_of_range : errorOf (stepOf 0xF055 (·.setI 0x1005)) =
    some (.halted (.addressOutOfRange 0x200 0x1005)) := by decide
/-- R195, its example. -/
theorem test_ldRegs : after (fun t => (t.getV 0, t.getV 1, t.getV 2, t.getV 3))
    (stepOf 0xF265 fun s => (s.setI 0x300).setRam (s.ram.writeList 0x300 [1, 5, 6, 7])) = some (1, 5, 6, 0) := by decide
/-- V89. -/
theorem test_ldRegs_out_of_range : errorOf (stepOf 0xFF65 (·.setI 0xFF1)) =
    some (.halted (.addressOutOfRange 0x200 0x1000)) := by decide
/-- W2. -/
theorem test_cls : after (fun t => (t.fb.isClear, t.getV 15))
    (stepOf 0x00E0 fun s => (s.setFb (s.fb.setPixel 3 4 true)).setV 15 7) = some (true, 7) := by decide
/-- V98: x is the old VF, 62, and the glyph wraps to columns 0 and 1. -/
theorem test_drw_wraps : after (fun t => (t.fb.pixel 0 62, t.fb.pixel 4 1, t.fb.pixel 1 63, t.getV 15))
    (stepOf 0xDF05 (·.setV 15 0x3E)) = some (true, true, false, 0) := by decide
/-- V96. -/
theorem test_drw_out_of_range : after (fun t => (t.status, t.fb.isClear)) (stepOf 0xD013 (·.setI 0xFFE)) =
    some (.halted (.addressOutOfRange 0x200 0x1000), true) := by decide
/-- V100. -/
theorem test_skp : after State.pc (stepOf 0xE59E fun s => (s.setV 5 0xA).setKey (s.key.set 0xA true)) =
    some 0x204 := by decide
/-- V105. -/
theorem test_sknp_out_of_range : errorOf (stepOf 0xE5A1 (·.setV 5 0xFF)) =
    some (.halted (.keyOutOfRange 0x200 0xFF)) := by decide
/-- V107. -/
theorem test_ldVxK : after (fun t => (t.getV 0, t.pc)) (stepOf 0xF00A fun s => s.setKey ((s.key.set 3 true).set 7 true)) =
    some (3, 0x202) := by decide
/-- V106. -/
theorem test_ldVxK_stalls : after (fun t => (t.pc, t.status)) (stepOf 0xF00A id) = some (0x200, .running) := by decide
/-- V109. -/
theorem test_ldVxDT : after (·.getV 1) (stepOf 0xF107 (·.setDt 0x3C)) = some 0x3C := by decide
/-- V110. -/
theorem test_ldDTVx : after State.dt (stepOf 0xF015 (·.setV 0 3)) = some 3 := by decide
/-- V111. -/
theorem test_ldSTVx : after (fun t => (t.st, soundOn t)) (stepOf 0xF218 (·.setV 2 0x10)) = some (0x10, true) := by decide
/-- V1. -/
theorem test_unknown : after (fun t => (t.status, t.pc)) (stepOf 0x8008 id) =
    some (.halted (.unknownOpcode 0x200 0x8008), 0x200) := by decide
/-- V12. -/
theorem test_fetch_at_last_byte : errorOf (stepOf 0x6000 (·.setPc 0xFFF)) =
    some (.halted (.addressOutOfRange 0xFFF 0x1000)) := by decide
/-- V13. -/
theorem test_fetch_past_end : errorOf (stepOf 0x6000 (·.setPc 0x1004)) =
    some (.halted (.addressOutOfRange 0x1004 0x1004)) := by decide
/-- V114. -/
theorem test_tick_halted : (tick ((State.reset.setDt 5).setStatus (.halted (.stackUnderflow 0)))).dt = 5 := by decide
/-- P4, frame 2, cut to its first two steps: KEY[3] sets V0 and then DT. -/
theorem test_batch : after (fun t => (t.getV 0, t.dt, t.pc)) (stepBatch 2 [] (setKeys (State.reset.key.set 3 true)
    (State.reset.setRam (State.reset.ram.writeList 0x200 [0xF0, 0x0A, 0xF0, 0x15])))) = some (3, 3, 0x204) := by decide
/-- R120 and the source's own example of a mnemonic (30_encoding.md). -/
theorem test_mnemonic : (decodeOperation 0x31AA).mnemonic = "SE V1, 0xAA" := by decide
/-- A byte written back to what reset left is no entry of memory. -/
theorem test_memory_canonical : Memory.write (Memory.write [] 0x300 7) 0x300 0 = [] := by decide

/-! ### Witnesses: the hypotheses of each statement hold together somewhere -/

/-- The state after reset with a word at `PC`. -/
def withWord (op : Nat) : State := State.reset.withFetchWord 16 op

theorem wit_DecodeOfEncodeIsIdentity : (Instr.sys 0x0E1).wf = true ∧ (Instr.unknown 0x8008).wf = true := by decide

theorem wit_StepRunsDecodedInstruction :
    (withWord 0x6A9C).status = .running ∧ OpcodeAt (withWord 0x6A9C) 0x6A9C ∧ decode 0x6A9C = .ldByte 0xA 0x9C :=
  ⟨rfl, ⟨by decide, by decide⟩, by decide⟩

theorem wit_FetchPastEndOfRamHalts : (State.reset.setPc 0xFFF).status = .running ∧
    0xFFF < (State.reset.setPc 0xFFF).pc.toNat + 1 ∧ 0xFFF < (State.reset.setPc 0x1000).pc.toNat := by decide

theorem wit_HaltedCoreIsFrozenUntilReset : ∃ s : State, s.status = .halted (.stackUnderflow 0x200) ∧ s.randOffer = none :=
  ⟨State.reset.setStatus (.halted (.stackUnderflow 0x200)), rfl, rfl⟩

theorem wit_reset_inv : State.reset.Inv :=
  ⟨by decide, by decide, by decide, by decide, fun _ h => nomatch h⟩

theorem wit_StepKeepsRunInvariant : ∃ s t : State, s.Inv ∧ step s = .next t ∧ t ≠ s :=
  ⟨withWord 0x2ABC, _, ⟨by decide, by decide, by decide, by decide, fun _ h => nomatch h⟩, rfl, by decide⟩

theorem wit_EveryStepAnswersNextState : (State.reset.setSp 16).sp.toNat ≤ 16 := by decide

theorem wit_ErrorsArePrecise : ∃ s t : State, s.status = .running ∧ step s = .next t ∧ t.status ≠ .running :=
  ⟨withWord 0x8008, _, rfl, rfl, by decide⟩

theorem wit_StepHaltsExactlyOnListedCauses : ∃ s t : State, s.status = .running ∧ step s = .next t ∧
    t.status = .halted (.unknownOpcode 0x200 0x8008) ∧ StepError s (.unknownOpcode 0x200 0x8008) :=
  ⟨withWord 0x8008, _, rfl, rfl, by decide, .inr ⟨0x8008, ⟨by decide, by decide⟩, by decide, by decide⟩⟩

theorem wit_IllegalStackPointerFaults : 16 < (State.reset.setSp 17).sp.toNat := by decide

theorem wit_OnlyNamedInstructionsWriteEachPart : ∃ t, exec (.call 0x300) State.reset = .next t ∧ t.stack ≠ State.reset.stack :=
  ⟨(State.reset.setStack 0 0x200 1).setPc 0x300, rfl, by decide⟩

/-- Its clauses on registers and on STATUS. -/
theorem wit_register_and_status_writers :
    (∃ t, exec (.ldByte 15 1) State.reset = .next t ∧ t.getV 15 ≠ State.reset.getV 15) ∧
    ∃ t, exec .ret State.reset = .next t ∧ t.status ≠ State.reset.status :=
  ⟨⟨_, rfl, by decide⟩, ⟨_, rfl, by decide⟩⟩

theorem wit_VfChangesOnlyAsFlagOrDestination :
    ∃ t, exec (.shr 1 0) (State.reset.setV 1 1) = .next t ∧ t.getV 15 ≠ (State.reset.setV 1 1).getV 15 :=
  ⟨_, rfl, by decide⟩

theorem wit_OnlyRndDependsOnRandomInput : ∃ t, (∀ x kk, Instr.cls ≠ .rnd x kk) ∧ exec .cls State.reset = .next t :=
  ⟨_, (fun _ _ h => nomatch h), rfl⟩

theorem wit_NoInstructionReadsSoundTimer : ∃ t, exec (.ldVxDT 1) State.reset = .next t := ⟨_, rfl⟩

theorem wit_StoredWordIsExecutedNext : (State.reset.setI 0x202).status = .running ∧ 1 ≤ (1 : RegIx).val ∧
    (State.reset.setI 0x202).i = (State.reset.setI 0x202).pc + 2 ∧
    (State.reset.setI 0x202).i.toNat + (1 : RegIx).val ≤ 0xFFF := by decide

theorem wit_RetReturnsPastTheCall : 1 ≤ (State.reset.setSp 16).sp.toNat ∧ (State.reset.setSp 16).sp.toNat - 1 < 16 ∧
    State.reset.sp.toNat = 0 := by decide

theorem wit_SysJumps : (0x0E1 : Addr12) ≠ 0x0E0 ∧ (0x0E1 : Addr12) ≠ 0x0EE := by decide

theorem wit_JmpJumps : (0x200 : Addr12).toNat = State.reset.pc.toNat ∧ State.reset.status = .running := by decide

theorem wit_CallPushesOwnAddressAndJumps : (State.reset.setSp 15).sp.toNat < 16 ∧ (State.reset.setSp 16).sp.toNat = 16 := by
  decide

theorem wit_skips : State.reset.getV 1 = 0x00 ∧ State.reset.getV 1 ≠ 0xAA ∧ State.reset.getV 1 = State.reset.getV 2 ∧
    (State.reset.setV 1 7).getV 1 ≠ (State.reset.setV 1 7).getV 2 := by decide

theorem wit_flag_writers_other_destination : (1 : RegIx) ≠ 15 := by decide

theorem wit_flag_conditions :
    255 < (((State.reset.setV 1 0xFF).setV 2 1).getV 1).toNat + (((State.reset.setV 1 0xFF).setV 2 1).getV 2).toNat ∧
    ((State.reset.setV 1 5).getV 2).toNat < ((State.reset.setV 1 5).getV 1).toNat := by decide

theorem wit_LdBStoresDigits : (State.reset.setI 0xFFD).base + 2 ≤ 0xFFF ∧ 0xFFF < (State.reset.setI 0xFFE).base + 2 := by
  decide

theorem wit_StoreAndLoadRegisters : (State.reset.setI 0xFF0).base + (15 : RegIx).val ≤ 0xFFF ∧
    0xFFF < (State.reset.setI 0xFF1).base + (15 : RegIx).val := by decide

theorem wit_ClsClearsFramebuffer : ∀ r c, State.reset.fb.pixel r c = false := fun r c => by
  simp [State.reset, Framebuffer.pixel, Framebuffer.blank]

theorem wit_BlitIsWrappedXor : (List.replicate 15 (0xFF : Byte)).length ≤ 15 := by decide

theorem wit_DrwDrawsSpriteFromMemory : (0 : Nibble).toNat = 0 ∧ (State.reset.setI 0xFFB).base + (5 : Nibble).toNat - 1 ≤ 0xFFF ∧
    0 < (3 : Nibble).toNat ∧ 0xFFF < (State.reset.setI 0xFFE).base + (3 : Nibble).toNat - 1 := by decide

theorem wit_DrawingTwiceRestoresFramebuffer :
    (0 : RegIx) ≠ 15 ∧ (1 : RegIx) ≠ 15 ∧ State.reset.base + (5 : Nibble).toNat - 1 ≤ 0xFFF := by decide

theorem wit_KeySkipsReadKeypad : ((State.reset.setV 5 15).getV 5).toNat < 16 ∧ 15 < ((State.reset.setV 5 16).getV 5).toNat ∧
    State.reset.keyAt 15 = false ∧ (State.reset.setKey (State.reset.key.set 15 true)).keyAt 15 = true := by decide

theorem wit_LdVxKTakesLowestKeyOrStalls : (∀ k, State.reset.keyAt k = false) ∧
    (State.reset.setKey ((State.reset.key.set 3 true).set 7 true)).keyAt 3 = true ∧
    ∀ j, j < 3 → (State.reset.setKey ((State.reset.key.set 3 true).set 7 true)).keyAt j = false := by decide

theorem wit_running : State.reset.status = .running := rfl

theorem wit_ResetLeavesListedValues : (79 : Nat) < 80 ∧ (80 : Nat) ≤ 80 := by decide

theorem wit_LoadCopiesRom : (List.replicate 3584 (0 : Byte)).length ≤ 3584 ∧ 3584 < (List.replicate 3585 (0 : Byte)).length ∧
    State.reset.ram.wf = true :=
  ⟨by rw [List.length_replicate], by rw [List.length_replicate]; decide, rfl⟩

theorem wit_BatchStopsAtFirstHalt : (∃ t, stepBatch 2 [] (withWord 0x1200) = .next t ∧ t.status = .running) ∧
    (∃ t, stepBatch 2 [] (withWord 0x8008) = .next t ∧ t.status ≠ .running) ∧
    stepBatch 2 [] ((withWord 0x00EE).setSp 17) = .fault .illegalStackPointer :=
  ⟨⟨_, rfl, by decide⟩, ⟨_, rfl, by decide⟩, rfl⟩

theorem wit_KeypadIsConstantWithinBatch : ∃ t, frame (State.reset.key.set 3 true) [] (withWord 0x1200) = .next t := ⟨_, rfl⟩

theorem wit_FrameTicksOnce : ∃ t, stepBatch 9 [] (setKeys (State.reset.key.set 3 true) (withWord 0x1200)) = .next t ∧
    t.status = .running := ⟨_, rfl, by decide⟩

theorem wit_StepOffersItsByteToRnd : (withWord 0xC30F).status = .running ∧ OpcodeAt (withWord 0xC30F) (patXKK 0xC 3 0x0F) ∧
    (withWord 0x00E0).status = .running ∧ (withWord 0x00E0).randOffer = none ∧ OpcodeAt (withWord 0x00E0) 0x00E0 ∧
    ∀ x kk, decode 0x00E0 ≠ .rnd x kk :=
  ⟨rfl, ⟨by decide, by decide⟩, rfl, rfl, ⟨by decide, by decide⟩, fun _ _ h => nomatch h⟩

end Sys2Proof.Tests
end

section
/-! The skips of spec/40_flow.md: where a skip leaves `PC`, its frame, and the skips that compare a register with a byte. -/

namespace Sys2Proof.Machine

/-! ### What writing `PC` and skipping leave -/

/-- Writing `PC` leaves every other part as it was. -/
theorem State.kept_setPc (s : State) (w : Word) : Kept [.pc] s (s.setPc w) where
  v _ _ := rfl
  i _ := rfl
  pc h := absurd (List.mem_singleton_self _) h
  sp _ := rfl
  stack _ _ := rfl
  dt _ := rfl
  st _ := rfl
  key _ _ := rfl
  fb _ _ _ := rfl
  ram _ _ := rfl
  status _ := rfl
  randOffer _ := rfl
  randDraws _ := rfl

theorem State.kept_skipIf (s : State) (cond : Bool) : Kept [.pc] s (s.skipIf cond) :=
  s.skipIf_eq cond ▸ s.kept_setPc _

theorem State.skipIf_pc_of_true (s : State) {cond : Bool} (h : cond = true) : (s.skipIf cond).pc = s.pc + 4 := by
  simp [State.skipIf_eq, h]

theorem State.skipIf_pc_of_false (s : State) {cond : Bool} (h : cond = false) : (s.skipIf cond).pc = s.pc + 2 := by
  simp [State.skipIf_eq, h]

/-! ### The encodings of the byte skips -/

theorem decode_patXKK_3 (x : RegIx) (kk : Byte) : decode (patXKK 0x3 x kk) = .seByte x kk :=
  (congrArg decode (patXKK_eq 0x3 x kk)).trans (Laws.RoundTrip.seByte x kk rfl)

theorem decode_patXKK_4 (x : RegIx) (kk : Byte) : decode (patXKK 0x4 x kk) = .sneByte x kk :=
  (congrArg decode (patXKK_eq 0x4 x kk)).trans (Laws.RoundTrip.sneByte x kk rfl)

/-! ### The byte skips -/

/-- Settles O24: SE ends in the skip whose condition is `V[x] == kk`. -/
theorem seByteSkipsOnEqual : Obligations.SeByteSkipsOnEqual := by
  intro x kk s
  refine ⟨decode_patXKK_3 x kk, s.skipIf (s.getV x == kk), exec_seByte x kk s, ?equal, ?different, s.kept_skipIf _⟩
  case equal => exact fun h => s.skipIf_pc_of_true (beq_iff_eq.2 h)
  case different => exact fun h => s.skipIf_pc_of_false (beq_eq_false_iff_ne.2 h)

/-- Settles O25: SNE ends in the skip whose condition is `V[x] != kk`. -/
theorem sneByteSkipsOnDifferent : Obligations.SneByteSkipsOnDifferent := by
  intro x kk s
  refine ⟨decode_patXKK_4 x kk, s.skipIf (s.getV x != kk), exec_sneByte x kk s, ?different, ?equal, s.kept_skipIf _⟩
  case different => exact fun h => s.skipIf_pc_of_true (bne_iff_ne.2 h)
  case equal => exact fun h => s.skipIf_pc_of_false (bne_eq_false_iff_eq.2 h)

end Sys2Proof.Machine
end

section
/-! The register loads and the add of a byte of spec/41_alu.md: what the ending `V[x] <- b; advance(2)` does, and the three
instructions that are nothing but it. -/

namespace Sys2Proof.Machine

/-! ### What writing registers and `PC` leaves -/

/-- Whatever is written to the registers and to `PC`, every other part is as it was. -/
theorem State.kept_registers_pc (s : State) (v : Vector Byte 16) (w : Word) :
    Kept [.v, .pc] s { s with v := v, pc := w } where
  v h := absurd (by decide) h
  i _ := rfl
  pc h := absurd (by decide) h
  sp _ := rfl
  stack _ _ := rfl
  dt _ := rfl
  st _ := rfl
  key _ _ := rfl
  fb _ _ _ := rfl
  ram _ _ := rfl
  status _ := rfl
  randOffer _ := rfl
  randDraws _ := rfl

theorem State.regsKept_setV_advance (s : State) (x : RegIx) (b : Byte) (k : Word) :
    RegsKept [x] s ((s.setV x b).advance k) := fun j hj => by
  have hne : j ≠ x := List.ne_of_not_mem_cons hj
  rw [State.getV_advance, State.getV_setV_ne s b hne]

/-- The ending of an instruction whose one result is `V[x]` and that writes no flag (R160). -/
theorem State.setV_advance_effect (s : State) (x : RegIx) (b : Byte) :
    ((s.setV x b).advance 2).getV x = b ∧ RegsKept [x] s ((s.setV x b).advance 2) ∧
      ((s.setV x b).advance 2).pc = s.pc + 2 ∧ Kept [.v, .pc] s ((s.setV x b).advance 2) := by
  refine ⟨?result, s.regsKept_setV_advance x b 2, ?pc, s.kept_registers_pc _ _⟩
  case result => rw [State.getV_advance, State.getV_setV_same]
  case pc => rw [State.advance_pc, State.setV_pc]

/-! ### The encodings -/

theorem decode_patXKK_6 (x : RegIx) (kk : Byte) : decode (patXKK 0x6 x kk) = .ldByte x kk :=
  (congrArg decode (patXKK_eq 0x6 x kk)).trans (Laws.RoundTrip.ldByte x kk rfl)

theorem decode_patXKK_7 (x : RegIx) (kk : Byte) : decode (patXKK 0x7 x kk) = .addByte x kk :=
  (congrArg decode (patXKK_eq 0x7 x kk)).trans (Laws.RoundTrip.addByte x kk rfl)

theorem decode_patXYN_8_0 (x y : RegIx) : decode (patXYN 0x8 x y 0x0) = .ldReg x y :=
  (congrArg decode (patXYN_eq 0x8 x y 0x0)).trans (Laws.RoundTrip.ldReg x y rfl)

/-! ### The loads and the add -/

/-- Settles O27: LD of a byte is the ending with `kk` as the result. -/
theorem ldByteLoadsImmediate : Obligations.LdByteLoadsImmediate := by
  intro x kk s
  exact ⟨decode_patXKK_6 x kk, (s.setV x kk).advance 2, exec_ldByte x kk s, s.setV_advance_effect x kk⟩

/-- Settles O28: ADD of a byte is the ending with the 8-bit sum as the result, and no flag is written beside it. -/
theorem addByteWrapsWithoutFlag : Obligations.AddByteWrapsWithoutFlag := by
  intro x kk s
  obtain ⟨hsum, hregs, hpc, hkept⟩ := s.setV_advance_effect x (s.getV x + kk)
  refine ⟨decode_patXKK_7 x kk, (s.setV x (s.getV x + kk)).advance 2, exec_addByte x kk s, ?sum, hregs, hpc, hkept⟩
  case sum => rw [hsum, BitVec.toNat_add]

/-- Settles O29: LD of a register is the ending with the old `V[y]` as the result, `x = y` included. -/
theorem ldRegCopies : Obligations.LdRegCopies := by
  intro x y s
  exact ⟨decode_patXYN_8_0 x y, (s.setV x (s.getV y)).advance 2, exec_ldReg x y s, s.setV_advance_effect x (s.getV y)⟩

end Sys2Proof.Machine
end

section
/-! The loads of the index register of spec/42_index_memory.md that read no memory: what the ending `I <- w; advance(2)`
does, and the values LD I and LD F end with. -/

namespace Sys2Proof.Machine

/-! ### What writing `I` and `PC` leaves -/

/-- Whatever is written to `I` and to `PC`, every other part is as it was. -/
theorem State.kept_i_pc (s : State) (w pc : Word) : Kept [.i, .pc] s { s with i := w, pc := pc } where
  v _ _ := rfl
  i h := absurd (by decide) h
  pc h := absurd (by decide) h
  sp _ := rfl
  stack _ _ := rfl
  dt _ := rfl
  st _ := rfl
  key _ _ := rfl
  fb _ _ _ := rfl
  ram _ _ := rfl
  status _ := rfl
  randOffer _ := rfl
  randDraws _ := rfl

/-- The ending of an instruction whose one result is `I`. -/
theorem State.setI_advance_effect (s : State) (w : Word) :
    ((s.setI w).advance 2).i = w ∧ ((s.setI w).advance 2).pc = s.pc + 2 ∧
      Kept [.i, .pc] s ((s.setI w).advance 2) := by
  refine ⟨?result, ?pc, s.kept_i_pc _ _⟩
  case result => rw [State.advance_i, State.setI_i]
  case pc => rw [State.advance_pc, State.setI_pc]

/-! ### The address of a glyph -/

/-- A glyph's address is the exact product: the largest is `255 * 5`, far below the 16-bit wrap. -/
theorem toNat_glyphAddress (b : Byte) : (byteImm b * BitVec.ofNat 16 Config.fontGlyphBytes).toNat = b.toNat * 5 := by
  have hb : b.toNat * 5 < 2 ^ 16 := by have := b.isLt; omega
  calc (byteImm b * BitVec.ofNat 16 Config.fontGlyphBytes).toNat
      = b.toNat * 5 % 2 ^ 16 := by rw [BitVec.toNat_mul, toNat_byteImm]; rfl
    _ = b.toNat * 5 := Nat.mod_eq_of_lt hb

/-! ### The encodings -/

theorem decode_patNNN_A (nnn : Addr12) : decode (patNNN 0xA nnn) = .ldI nnn :=
  (congrArg decode (patNNN_eq 0xA nnn)).trans (Laws.RoundTrip.ldI nnn rfl)

theorem decode_patXKK_F_29 (x : RegIx) : decode (patXKK 0xF x 0x29) = .ldF x :=
  (congrArg decode (patXKK_eq 0xF x 0x29)).trans (Laws.RoundTrip.ldF x rfl)

/-! ### The loads of `I` -/

/-- Settles O36: LD I is the ending with the zero-extended `nnn` as the result. -/
theorem ldILoadsAddress : Obligations.LdILoadsAddress := by
  intro nnn s
  obtain ⟨hi, hpc, hkept⟩ := s.setI_advance_effect (addrImm nnn)
  refine ⟨decode_patNNN_A nnn, (s.setI (addrImm nnn)).advance 2, exec_ldI nnn s, ?address, hpc, hkept⟩
  case address => rw [hi, toNat_addrImm]

/-- Settles O38: LD F is the ending with the address of the glyph of `V[x]` as the result; the product never wraps. -/
theorem ldFPointsAtGlyph : Obligations.LdFPointsAtGlyph := by
  intro x s
  obtain ⟨hi, hpc, hkept⟩ := s.setI_advance_effect (byteImm (s.getV x) * BitVec.ofNat 16 Config.fontGlyphBytes)
  refine ⟨decode_patXKK_F_29 x, _, exec_ldF x s, ?glyph, hpc, hkept⟩
  case glyph => rw [hi, toNat_glyphAddress]

end Sys2Proof.Machine
end

section
/-! The clear of spec/43_display.md: what the ending `FB <- f; advance(2)` does, and CLS, which ends with the blank
framebuffer. -/

namespace Sys2Proof.Machine

/-! ### What writing the framebuffer and `PC` leaves -/

/-- Whatever is written to the framebuffer and to `PC`, every other part is as it was. -/
theorem State.kept_fb_pc (s : State) (f : Framebuffer) (w : Word) : Kept [.fb, .pc] s { s with fb := f, pc := w } where
  v _ _ := rfl
  i _ := rfl
  pc h := absurd (by decide) h
  sp _ := rfl
  stack _ _ := rfl
  dt _ := rfl
  st _ := rfl
  key _ _ := rfl
  fb h := absurd (by decide) h
  ram _ _ := rfl
  status _ := rfl
  randOffer _ := rfl
  randDraws _ := rfl

/-- The ending of an instruction whose one result is the framebuffer. -/
theorem State.setFb_advance_effect (s : State) (f : Framebuffer) :
    ((s.setFb f).advance 2).fb = f ∧ ((s.setFb f).advance 2).pc = s.pc + 2 ∧
      Kept [.fb, .pc] s ((s.setFb f).advance 2) := by
  refine ⟨?result, ?pc, s.kept_fb_pc _ _⟩
  case result => rw [State.advance_fb, State.setFb_fb]
  case pc => rw [State.advance_pc, State.setFb_pc]

/-! ### The clear framebuffer -/

/-- The blank framebuffer is the only one with every pixel 0. -/
theorem Framebuffer.eq_blank_iff (f : Framebuffer) :
    f = Framebuffer.blank ↔ ∀ r c, Framebuffer.pixel f r c = false := by
  constructor
  · rintro rfl
    exact Framebuffer.pixel_blank
  · exact fun h => Framebuffer.ext_pixel fun r c => (h r c).trans (Framebuffer.pixel_blank r c).symm

/-! ### The encoding -/

theorem decode_00E0 : decode 0x00E0 = .cls := Laws.RoundTrip.cls rfl

/-! ### CLS -/

/-- Settles O42: CLS is the ending with the blank framebuffer as the result, and a framebuffer that was clear is that
one already. -/
theorem clsClearsFramebuffer : Obligations.ClsClearsFramebuffer := by
  refine ⟨decode_00E0, fun s => ?_⟩
  obtain ⟨hfb, hpc, hkept⟩ := s.setFb_advance_effect Framebuffer.blank
  have hclear := (Framebuffer.eq_blank_iff _).1 hfb
  refine ⟨(s.setFb Framebuffer.blank).advance 2, exec_cls s, hclear, ?isClear, hpc, hkept, ?unchanged⟩
  case isClear => exact (Framebuffer.isClear_iff _).2 hclear
  case unchanged => exact fun hs => hfb.trans ((Framebuffer.eq_blank_iff s.fb).2 hs).symm

end Sys2Proof.Machine
end

section
/-! The write of the delay timer of spec/44_keys_timers.md: what the ending `DT <- b; advance(2)` does, what a tick makes
of `DT`, and LD DT, Vx, whose written value the next tick decrements. -/

namespace Sys2Proof.Machine

/-! ### What writing `DT` and `PC` leaves -/

/-- Whatever is written to `DT` and to `PC`, every other part is as it was. -/
theorem State.kept_dt_pc (s : State) (b : Byte) (w : Word) : Kept [.dt, .pc] s { s with dt := b, pc := w } where
  v _ _ := rfl
  i _ := rfl
  pc h := absurd (by decide) h
  sp _ := rfl
  stack _ _ := rfl
  dt h := absurd (by decide) h
  st _ := rfl
  key _ _ := rfl
  fb _ _ _ := rfl
  ram _ _ := rfl
  status _ := rfl
  randOffer _ := rfl
  randDraws _ := rfl

/-- The ending of an instruction whose one result is `DT`. -/
theorem State.setDt_advance_effect (s : State) (b : Byte) :
    ((s.setDt b).advance 2).dt = b ∧ ((s.setDt b).advance 2).pc = s.pc + 2 ∧
      Kept [.dt, .pc] s ((s.setDt b).advance 2) := by
  refine ⟨?result, ?pc, s.kept_dt_pc _ _⟩
  case result => rw [State.advance_dt, State.setDt_dt]
  case pc => rw [State.advance_pc, State.setDt_pc]

/-! ### The tick -/

theorem tick_of_running {s : State} (h : s.status = .running) :
    tick s = (s.setDt (countDown s.dt)).setSt (countDown s.st) := by
  simp only [tick, h]

/-- The delay timer after a running core's tick: one lower, and 0 when it was 0 (R270). -/
theorem toNat_dt_tick_of_running {s : State} (h : s.status = .running) : (tick s).dt.toNat = s.dt.toNat - 1 := by
  rw [tick_of_running h, State.setSt_dt, State.setDt_dt, toNat_countDown]

/-! ### The encoding -/

theorem decode_patXKK_F_15 (x : RegIx) : decode (patXKK 0xF x 0x15) = .ldDTVx x :=
  (congrArg decode (patXKK_eq 0xF x 0x15)).trans (Laws.RoundTrip.ldDTVx x rfl)

/-! ### LD DT, Vx -/

/-- Settles O49: LD DT is the ending with `V[x]` as the result; it leaves STATUS as it was, so the next tick of a running
core counts the written value down. -/
theorem ldDTVxSetsDelayTimer : Obligations.LdDTVxSetsDelayTimer := by
  intro x s
  obtain ⟨hdt, hpc, hkept⟩ := s.setDt_advance_effect (s.getV x)
  refine ⟨decode_patXKK_F_15 x, (s.setDt (s.getV x)).advance 2, exec_ldDTVx x s, hdt, hpc, hkept, ?nextTick⟩
  case nextTick =>
    intro hrun
    have hrun' : ((s.setDt (s.getV x)).advance 2).status = .running := (hkept.status (by decide)).trans hrun
    rw [toNat_dt_tick_of_running hrun', hdt]

end Sys2Proof.Machine
end

section
/-! The frame of any ending: a state that takes only the listed parts from elsewhere keeps every other one. -/

namespace Sys2Proof.Machine

/-- The state `s` with the listed parts taken from `t`. -/
def State.overwrite (s : State) (written : List Part) (t : State) : State where
  v := if .v ∈ written then t.v else s.v
  i := if .i ∈ written then t.i else s.i
  pc := if .pc ∈ written then t.pc else s.pc
  sp := if .sp ∈ written then t.sp else s.sp
  stack := if .stack ∈ written then t.stack else s.stack
  dt := if .dt ∈ written then t.dt else s.dt
  st := if .st ∈ written then t.st else s.st
  key := if .key ∈ written then t.key else s.key
  fb := if .fb ∈ written then t.fb else s.fb
  ram := if .ram ∈ written then t.ram else s.ram
  status := if .status ∈ written then t.status else s.status
  randOffer := if .randOffer ∈ written then t.randOffer else s.randOffer
  randDraws := if .randDraws ∈ written then t.randDraws else s.randDraws

/-- A state that differs in the listed parts only keeps every other part. For a concrete ending the hypothesis is true by
evaluation. -/
theorem Kept.of_overwrite {written : List Part} {s t : State} (h : t = s.overwrite written t) : Kept written s t where
  v hw j := State.getV_of_v ((congrArg State.v h).trans (if_neg hw)) j
  i hw := (congrArg State.i h).trans (if_neg hw)
  pc hw := (congrArg State.pc h).trans (if_neg hw)
  sp hw := (congrArg State.sp h).trans (if_neg hw)
  stack hw j := State.stackAt_of_stack ((congrArg State.stack h).trans (if_neg hw)) j
  dt hw := (congrArg State.dt h).trans (if_neg hw)
  st hw := (congrArg State.st h).trans (if_neg hw)
  key hw k := State.keyAt_of_key ((congrArg State.key h).trans (if_neg hw)) k
  fb hw r c := congrArg (Framebuffer.pixel · r c) ((congrArg State.fb h).trans (if_neg hw))
  ram hw a := congrArg (Memory.read · a) ((congrArg State.ram h).trans (if_neg hw))
  status hw := (congrArg State.status h).trans (if_neg hw)
  randOffer hw := (congrArg State.randOffer h).trans (if_neg hw)
  randDraws hw := (congrArg State.randDraws h).trans (if_neg hw)

end Sys2Proof.Machine
end

section
/-! The outcome of an instruction, said once: the error it raises, the stall of LD Vx, K, and the state it ends in
otherwise. `exec_eq` ties the three to `exec`; the statements about every instruction and about the step follow from it. -/

namespace Sys2Proof.Machine

/-! ### The outcome as a function -/

/-- The error the instruction raises (the table of R251), if it raises one. -/
def raises (i : Instr) (s : State) : Option CoreError :=
  match i with
  | .unknown op => some (.unknownOpcode s.pc op)
  | .call nnn => if s.sp.toNat = 16 then some (.stackOverflow s.pc nnn) else none
  | .ret => if s.sp.toNat = 0 then some (.stackUnderflow s.pc) else none
  | .skp x | .sknp x => if 15 < (s.getV x).toNat then some (.keyOutOfRange s.pc (s.getV x)) else none
  | i => (firstBadAddr s.base (accessCount i)).map (.addressOutOfRange s.pc)

/-- LD Vx, K with no key pressed (R233). -/
def stalls : Instr → State → Bool
  | .ldVxK _, s => s.pressedKey.isNone
  | _, _ => false

/-- The instruction uses the stack, so that an `SP` above 16 leaves it without an effect (R37). -/
def usesStack : Instr → Bool
  | .ret | .call _ => true
  | _ => false

/-- The state the instruction ends in when it neither raises nor stalls. -/
def effect (i : Instr) (s : State) : State :=
  match i with
  | .cls => (s.setFb Framebuffer.blank).advance 2
  | .ret => (s.setSp (s.sp - 1)).setPc (s.stackAt (Fin.ofNat 16 (s.sp.toNat - 1)) + 2)
  | .sys nnn | .jmp nnn => s.setPc (addrImm nnn)
  | .call nnn => (s.setStack (Fin.ofNat 16 s.sp.toNat) s.pc (s.sp + 1)).setPc (addrImm nnn)
  | .seByte x kk => s.setPc (s.pc + if s.getV x == kk then 4 else 2)
  | .sneByte x kk => s.setPc (s.pc + if s.getV x != kk then 4 else 2)
  | .seReg x y _ => s.setPc (s.pc + if s.getV x == s.getV y then 4 else 2)
  | .sneReg x y _ => s.setPc (s.pc + if s.getV x != s.getV y then 4 else 2)
  | .skp x => s.setPc (s.pc + if s.keyAt (Fin.ofNat 16 (s.getV x).toNat) then 4 else 2)
  | .sknp x => s.setPc (s.pc + if !s.keyAt (Fin.ofNat 16 (s.getV x).toNat) then 4 else 2)
  | .ldByte x kk => (s.setV x kk).advance 2
  | .addByte x kk => (s.setV x (s.getV x + kk)).advance 2
  | .ldReg x y => (s.setV x (s.getV y)).advance 2
  | .orReg x y => (s.setV x (s.getV x ||| s.getV y)).advance 2
  | .andReg x y => (s.setV x (s.getV x &&& s.getV y)).advance 2
  | .xorReg x y => (s.setV x (s.getV x ^^^ s.getV y)).advance 2
  | .addReg x y =>
    (s.setResultFlag x (addModResult (s.getV x) (s.getV y)) (carryFlag (s.getV x) (s.getV y))).advance 2
  | .subReg x y => (s.setResultFlag x (s.getV x - s.getV y) (noBorrowFlag (s.getV x) (s.getV y))).advance 2
  | .shr x _ => (s.setResultFlag x (s.getV x >>> 1) (shrFlag (s.getV x))).advance 2
  | .subnReg x y => (s.setResultFlag x (s.getV y - s.getV x) (noBorrowFlag (s.getV y) (s.getV x))).advance 2
  | .shl x _ => (s.setResultFlag x (s.getV x <<< 1) (shlFlag (s.getV x))).advance 2
  | .ldI nnn => (s.setI (addrImm nnn)).advance 2
  | .jpV0 nnn => s.setPc (addrImm nnn + byteImm (s.getV 0))
  | .rnd x kk => (s.setV x (s.randByte &&& kk)).drawn.advance 2
  | .drw x y n =>
    let blit := displaySprite (s.getV x) (s.getV y) (s.ram.readList s.base (rowCount n)) s.fb
    ((s.setFb blit.1).setFlag (flagByte blit.2)).advance 2
  | .ldVxDT x => (s.setV x s.dt).advance 2
  | .ldVxK x => (s.setV x (BitVec.ofNat 8 (s.pressedKey.getD 0).val)).advance 2
  | .ldDTVx x => (s.setDt (s.getV x)).advance 2
  | .ldSTVx x => (s.setSt (s.getV x)).advance 2
  | .addI x => (s.setI (s.i + byteImm (s.getV x))).advance 2
  | .ldF x => (s.setI (byteImm (s.getV x) * BitVec.ofNat 16 Config.fontGlyphBytes)).advance 2
  | .ldB x => (s.setRam (s.ram.writeList s.base (bcdDigits (s.getV x)))).advance 2
  | .stRegs x => (s.setRam (s.ram.writeList s.base (s.regsUpTo x))).advance 2
  | .ldRegs x =>
    { s with v := (s.setRegsFrom 0 (s.ram.readList s.base (regCount x))).v, pc := s.pc + 2 }
  | .unknown _ => s

/-- The state after the instruction: halted by the error it raises, the same when it stalls, else its effect. -/
def outcome (i : Instr) (s : State) : State :=
  (raises i s).elim (if stalls i s then s else effect i s) s.haltedWith

/-! ### The outcome is what `exec` answers -/

theorem raise_eq (e : CoreError) (s : State) : raise e s = .next (s.haltedWith e) := rfl

/-- A range check in front of a next state. -/
theorem checkRange_next (a n : Nat) (s t : State) :
    checkRange a n s (.next t) = .next (((firstBadAddr a n).map (.addressOutOfRange s.pc)).elim t s.haltedWith) := by
  unfold checkRange
  cases firstBadAddr a n <;> rfl

theorem ofNat_eq_mk {k : Nat} (h : k < 16) : Fin.ofNat 16 k = ⟨k, h⟩ := Fin.ext (Nat.mod_eq_of_lt h)

/-- A key check in front of a next state. -/
theorem checkKey_next (b : Byte) (s : State) (k : Bool → State) :
    checkKey b s (fun down => .next (k down)) =
      .next ((if 15 < b.toNat then some (.keyOutOfRange s.pc b) else none).elim
        (k (s.keyAt (Fin.ofNat 16 b.toNat))) s.haltedWith) := by
  by_cases h : 15 < b.toNat
  · rw [checkKey_bad h, if_pos h]; rfl
  · have hb : b.toNat < 16 := by omega
    rw [checkKey_ok hb, if_neg h, ofNat_eq_mk hb]; rfl

theorem outcome_of_raises {i : Instr} {s : State} {e : CoreError} (h : raises i s = some e) :
    outcome i s = s.haltedWith e := by
  rw [outcome, h, Option.elim_some]

theorem outcome_of_stalls {i : Instr} {s : State} (h : raises i s = none) (hs : stalls i s = true) :
    outcome i s = s := by
  rw [outcome, h, Option.elim_none, if_pos hs]

theorem outcome_of_effect {i : Instr} {s : State} (h : raises i s = none) (hs : stalls i s = false) :
    outcome i s = effect i s := by
  rw [outcome, h, Option.elim_none, hs, if_neg Bool.false_ne_true]

theorem exec_ret_eq {s : State} (h : s.sp.toNat ≤ 16) : exec .ret s = .next (outcome .ret s) := by
  rw [exec_ret, execRet]
  by_cases h0 : s.sp.toNat = 0
  · rw [pop_empty h0, outcome_of_raises (i := .ret) (if_pos h0), raise_eq]
  · rw [pop_some (by omega) (by omega), outcome_of_effect (i := .ret) (if_neg h0) rfl, ← ofNat_eq_mk, effect]

theorem exec_call_eq {nnn : Addr12} {s : State} (h : s.sp.toNat ≤ 16) :
    exec (.call nnn) s = .next (outcome (.call nnn) s) := by
  rw [exec_call, execCall]
  by_cases h16 : s.sp.toNat = 16
  · rw [push_full h16, outcome_of_raises (i := .call nnn) (if_pos h16), raise_eq]
  · rw [push_room (by omega), outcome_of_effect (i := .call nnn) (if_neg h16) rfl, ← ofNat_eq_mk, effect]

theorem exec_ldVxK_eq (x : RegIx) (s : State) : exec (.ldVxK x) s = .next (outcome (.ldVxK x) s) := by
  rw [exec_ldVxK, execLdVxK]
  cases hk : s.pressedKey with
  | none => rw [outcome_of_stalls rfl (by rw [stalls, hk]; rfl)]
  | some k => rw [outcome_of_effect rfl (by rw [stalls, hk]; rfl), effect, hk]; rfl

/-- Whatever the instruction and the state, the outcome is the next state, unless the instruction uses the stack with an
illegal `SP` (R37). -/
theorem exec_eq {i : Instr} {s : State} (h : usesStack i = true → s.sp.toNat ≤ 16) :
    exec i s = .next (outcome i s) := by
  cases i with
  | ret => exact exec_ret_eq (h rfl)
  | call nnn => exact exec_call_eq (h rfl)
  | seByte x kk => exact congrArg _ (s.skipIf_eq _)
  | sneByte x kk => exact congrArg _ (s.skipIf_eq _)
  | seReg x y n => exact congrArg _ (s.skipIf_eq _)
  | sneReg x y n => exact congrArg _ (s.skipIf_eq _)
  | drw x y n => exact checkRange_next _ _ _ _
  | skp x =>
    simp only [exec_skp, execSkp, State.skipIf_eq]
    exact checkKey_next _ _ _
  | sknp x =>
    simp only [exec_sknp, execSknp, State.skipIf_eq]
    exact checkKey_next _ _ _
  | ldVxK x => exact exec_ldVxK_eq x s
  | ldB x => exact checkRange_next _ _ _ _
  | stRegs x =>
    rw [exec_stRegs, execStRegs, storeAtI, State.length_regsUpTo]
    exact checkRange_next _ _ _ _
  | ldRegs x =>
    rw [exec_ldRegs, execLdRegs, State.setRegsFrom_eq]
    exact checkRange_next _ _ _ _
  | _ => rfl

/-- At an `SP` above 16 an instruction that uses the stack stops with the model's fault (assumption log entry 4). -/
theorem exec_illegal {i : Instr} {s : State} (hi : usesStack i = true) (h : 16 < s.sp.toNat) :
    exec i s = .fault .illegalStackPointer := by
  cases i with
  | ret => rw [exec_ret, execRet, pop_illegal h]
  | call nnn => rw [exec_call, execCall, push_illegal h]
  | _ => cases hi

/-- `exec` answers a next state exactly when `SP` is legal for the instruction, and that state is the outcome. -/
theorem exec_next_iff {i : Instr} {s t : State} :
    exec i s = .next t ↔ (usesStack i = true → s.sp.toNat ≤ 16) ∧ t = outcome i s := by
  by_cases h : usesStack i = true → s.sp.toNat ≤ 16
  · rw [exec_eq h, Host.Outcome.next.injEq]
    exact ⟨fun ht => ⟨h, ht.symm⟩, fun ht => ht.2.symm⟩
  · obtain ⟨hi, hsp⟩ := Classical.not_imp.1 h
    rw [exec_illegal hi (by omega)]
    exact ⟨fun ht => (nomatch ht), fun ht => absurd ht.1 h⟩

/-- An instruction that answers a next state, all it can do: raise, stall, or have its effect. -/
theorem exec_cases {i : Instr} {s t : State} (h : exec i s = .next t) :
    (∃ e, raises i s = some e ∧ t = s.haltedWith e) ∨ (raises i s = none ∧ stalls i s = true ∧ t = s) ∨
      (raises i s = none ∧ t = effect i s) := by
  obtain ⟨-, rfl⟩ := exec_next_iff.1 h
  cases hr : raises i s with
  | some e => exact .inl ⟨e, rfl, outcome_of_raises hr⟩
  | none =>
    cases hst : stalls i s with
    | true => exact .inr (.inl ⟨rfl, rfl, outcome_of_stalls hr hst⟩)
    | false => exact .inr (.inr ⟨rfl, outcome_of_effect hr hst⟩)

/-! ### The causes of an error -/

/-- An instruction that accesses memory from `I` up raises by the range check of its bytes. -/
theorem raises_of_access {i : Instr} (s : State) (h : 0 < accessCount i) :
    raises i s = (firstBadAddr s.base (accessCount i)).map (.addressOutOfRange s.pc) := by
  cases i with
  | drw x y n => rfl
  | ldB x => rfl
  | stRegs x => rfl
  | ldRegs x => rfl
  | _ => exact absurd h (lt_irrefl 0)

theorem raises_of_instrError {i : Instr} {s : State} {e : CoreError} (h : InstrError i s e) : raises i s = some e := by
  cases e with
  | unknownOpcode p op =>
    obtain ⟨rfl, rfl⟩ := h
    rfl
  | stackOverflow p target =>
    obtain ⟨rfl, rfl, hsp⟩ := h
    exact if_pos hsp
  | stackUnderflow p =>
    obtain ⟨rfl, rfl, hsp⟩ := h
    exact if_pos hsp
  | addressOutOfRange p bad =>
    obtain ⟨rfl, hn, hbad⟩ := h
    rw [raises_of_access s hn, State.base, firstBadAddr_some.2 ⟨⟨hn, hbad.1⟩, hbad.2⟩]
    rfl
  | keyOutOfRange p key =>
    obtain ⟨rfl, hkey, x, rfl | rfl, rfl⟩ := h <;> exact if_pos hkey

theorem instrError_of_range {i : Instr} {s : State} {e : CoreError}
    (h : (firstBadAddr s.base (accessCount i)).map (.addressOutOfRange s.pc) = some e) : InstrError i s e := by
  obtain ⟨bad, hbad, rfl⟩ := Option.map_eq_some_iff.1 h
  obtain ⟨⟨hn, hlast⟩, hmax⟩ := firstBadAddr_some.1 hbad
  exact ⟨rfl, hn, hlast, hmax⟩

theorem instrError_of_raises {i : Instr} {s : State} {e : CoreError} (h : raises i s = some e) : InstrError i s e := by
  cases i with
  | unknown op =>
    cases h
    exact ⟨rfl, rfl⟩
  | call nnn =>
    obtain ⟨hsp, he⟩ := Option.ite_none_right_eq_some.1 h
    cases he
    exact ⟨rfl, rfl, hsp⟩
  | ret =>
    obtain ⟨hsp, he⟩ := Option.ite_none_right_eq_some.1 h
    cases he
    exact ⟨rfl, rfl, hsp⟩
  | skp x =>
    obtain ⟨hkey, he⟩ := Option.ite_none_right_eq_some.1 h
    cases he
    exact ⟨rfl, hkey, x, .inl rfl, rfl⟩
  | sknp x =>
    obtain ⟨hkey, he⟩ := Option.ite_none_right_eq_some.1 h
    cases he
    exact ⟨rfl, hkey, x, .inr rfl, rfl⟩
  | drw x y n => exact instrError_of_range h
  | ldB x => exact instrError_of_range h
  | stRegs x => exact instrError_of_range h
  | ldRegs x => exact instrError_of_range h
  | _ => exact nomatch (show none = some e from h)

/-- The error an instruction raises is the one whose cause of R251 holds. -/
theorem raises_eq_some_iff {i : Instr} {s : State} {e : CoreError} : raises i s = some e ↔ InstrError i s e :=
  ⟨instrError_of_raises, raises_of_instrError⟩

/-- An error records the address of the instruction (R253). -/
theorem pc_of_raises {i : Instr} {s : State} {e : CoreError} (h : raises i s = some e) : e.pc = s.pc := by
  have he := instrError_of_raises h
  cases e <;> exact he.1

theorem canRaise_of_raises {i : Instr} {s : State} {e : CoreError} (h : raises i s = some e) : CanRaise i := by
  cases i with
  | unknown op => exact .inl ⟨op, rfl⟩
  | call nnn => exact .inr (.inl ⟨nnn, rfl⟩)
  | ret => exact .inr (.inr (.inl rfl))
  | drw x y n => exact .inr (.inr (.inr (.inl ⟨x, y, n, rfl⟩)))
  | ldB x => exact .inr (.inr (.inr (.inr ⟨x, .inl rfl⟩)))
  | stRegs x => exact .inr (.inr (.inr (.inr ⟨x, .inr (.inl rfl)⟩)))
  | ldRegs x => exact .inr (.inr (.inr (.inr ⟨x, .inr (.inr (.inl rfl))⟩)))
  | skp x => exact .inr (.inr (.inr (.inr ⟨x, .inr (.inr (.inr (.inl rfl)))⟩)))
  | sknp x => exact .inr (.inr (.inr (.inr ⟨x, .inr (.inr (.inr (.inr rfl)))⟩)))
  | _ => exact nomatch (show none = some e from h)

/-! ### An instruction that raises, and one that does not -/

/-- An instruction whose error has its cause halts with it and writes nothing else (R253, R256). -/
theorem exec_of_instrError {i : Instr} {s : State} {e : CoreError} (h : InstrError i s e) :
    exec i s = .next (s.haltedWith e) := by
  have hr := raises_of_instrError h
  have hsp : usesStack i = true → s.sp.toNat ≤ 16 := by
    cases i with
    | ret =>
      obtain ⟨hsp, -⟩ := Option.ite_none_right_eq_some.1 hr
      omega
    | call nnn =>
      obtain ⟨hsp, -⟩ := Option.ite_none_right_eq_some.1 hr
      omega
    | _ => exact fun hi => nomatch hi
  rw [exec_eq hsp, outcome_of_raises hr]

theorem exec_of_effect {i : Instr} {s : State} (hr : raises i s = none) (hst : stalls i s = false)
    (hsp : usesStack i = true → s.sp.toNat ≤ 16) : exec i s = .next (effect i s) := by
  rw [exec_eq hsp, outcome_of_effect hr hst]

/-- An access in range has its effect. -/
theorem exec_access_ok {i : Instr} {s : State} (hn : 0 < accessCount i) (h : s.base + accessCount i - 1 ≤ 0xFFF) :
    exec i s = .next (effect i s) := by
  have hr : raises i s = none := by
    rw [raises_of_access s hn, firstBadAddr_none.2 (.inr h), Option.map_none]
  cases i with
  | drw x y n => exact exec_of_effect hr rfl fun hi => nomatch hi
  | ldB x => exact exec_of_effect hr rfl fun hi => nomatch hi
  | stRegs x => exact exec_of_effect hr rfl fun hi => nomatch hi
  | ldRegs x => exact exec_of_effect hr rfl fun hi => nomatch hi
  | _ => exact absurd hn (lt_irrefl 0)

/-- An access out of range halts with the first address above 0xFFF (R74). -/
theorem exec_access_bad {i : Instr} {s : State} (hn : 0 < accessCount i) (h : 0xFFF < s.base + accessCount i - 1) :
    exec i s = .next (s.haltedWith (.addressOutOfRange s.pc (max s.base 0x1000))) :=
  exec_of_instrError ⟨rfl, hn, h, rfl⟩

end Sys2Proof.Machine
end

section
/-! Decoding and encoding agree both ways (spec/30_encoding.md): the word of an instruction decodes to it, the instruction
of a word encodes to that word, and the words of no instruction are those of R112's lists. -/

namespace Sys2Proof

/-! ### A word with known selector fields -/

theorem wordA_of_family {op : Word} {f : BitVec 4} (hf : family op = f) : wordA f (fieldNNN op) = op := by
  rw [← hf, wordA_fields]

theorem wordXK_of_family {op : Word} {f : BitVec 4} (hf : family op = f) :
    wordXK f (fieldX op) (fieldKK op) = op := by
  rw [← hf, wordXK_fields]

theorem wordXK_of_selectors {op : Word} {f : BitVec 4} {kk : Byte} (hf : family op = f)
    (hk : (fieldKK op).toNat = kk.toNat) : wordXK f (fieldX op) kk = op := by
  rw [← BitVec.eq_of_toNat_eq hk, wordXK_of_family hf]

theorem wordXY_of_family {op : Word} {f : BitVec 4} (hf : family op = f) :
    wordXY f (fieldX op) (fieldY op) (fieldN op) = op := by
  rw [← hf, wordXY_fields]

theorem wordXY_of_selectors {op : Word} {f : BitVec 4} {n : Nibble} (hf : family op = f)
    (hn : (fieldN op).toNat = n.toNat) : wordXY f (fieldX op) (fieldY op) n = op := by
  rw [← BitVec.eq_of_toNat_eq hn, wordXY_of_family hf]

/-! ### The words of no instruction, as numbers -/

theorem contains_iff_toNat_mem {w : Nat} (l : List (BitVec w)) (b : BitVec w) :
    l.contains b = true ↔ b.toNat ∈ l.map BitVec.toNat := by
  rw [List.contains_iff_mem, List.mem_map_of_injective fun _ _ => BitVec.eq_of_toNat_eq]

theorem toNat_family_eq_iff (op : Word) (f : BitVec 4) : family op = f ↔ op.toNat / 0x1000 = f.toNat := by
  rw [← BitVec.toNat_inj, toNat_family]

/-- R112's lists as numbers. -/
theorem isUnknownWord_iff (op : Word) : isUnknownWord op = true ↔
    (op.toNat / 0x1000 = 0x8 ∧ op.toNat % 16 ∈ [0x8, 0x9, 0xA, 0xB, 0xC, 0xD, 0xF]) ∨
    (op.toNat / 0x1000 = 0xE ∧ op.toNat % 256 ∉ [0x9E, 0xA1]) ∨
    (op.toNat / 0x1000 = 0xF ∧ op.toNat % 256 ∉ [0x07, 0x0A, 0x15, 0x18, 0x1E, 0x29, 0x33, 0x55, 0x65]) := by
  have h8 := contains_iff_toNat_mem unknownNibbles8 (fieldN op)
  have hE := contains_iff_toNat_mem knownBytesE (fieldKK op)
  have hF := contains_iff_toNat_mem knownBytesF (fieldKK op)
  rw [toNat_fieldN] at h8
  rw [toNat_fieldKK] at hE hF
  show (family op == 0x8#4 && unknownNibbles8.contains (fieldN op) ||
    family op == 0xE#4 && !knownBytesE.contains (fieldKK op) ||
    family op == 0xF#4 && !knownBytesF.contains (fieldKK op)) = true ↔ _
  simp only [Bool.or_eq_true, Bool.and_eq_true, beq_iff_eq, Bool.not_eq_true', ← Bool.not_eq_true,
    toNat_family_eq_iff, h8, hE, hF, or_assoc]
  rfl

/-! ### The instruction of a word -/

/-- `i` is well-formed and its word is `op`. -/
def EncodesTo (i : Instr) (op : Word) : Prop := i.wf = true ∧ encode i = op

theorem encodesTo_unknown {op : Word} (h : isUnknownWord op = true) : EncodesTo (.unknown op) op := ⟨h, rfl⟩

theorem encodesTo_decode0 {op : Word} (hf : family op = 0x0) : EncodesTo (decode0 op) op := by
  have hop : wordA 0x0 (fieldNNN op) = op := wordA_of_family hf
  unfold decode0
  split
  case isTrue h => exact ⟨rfl, h.symm⟩
  case isFalse hcls =>
    split
    case isTrue h => exact ⟨rfl, h.symm⟩
    case isFalse hret =>
      have h1 : fieldNNN op ≠ 0x0E0 := fun h => hcls (by rw [← hop, h]; rfl)
      have h2 : fieldNNN op ≠ 0x0EE := fun h => hret (by rw [← hop, h]; rfl)
      exact ⟨Bool.and_eq_true_iff.2 ⟨bne_iff_ne.2 h1, bne_iff_ne.2 h2⟩, hop⟩

theorem encodesTo_decode8 {op : Word} (hf : family op = 0x8) : EncodesTo (decode8 op) op := by
  have hfam := (toNat_family_eq_iff op _).1 hf
  unfold decode8
  split
  case h_10 =>
    refine encodesTo_unknown ((isUnknownWord_iff op).2 (.inl ⟨hfam, ?_⟩))
    simp only [toNat_fieldN, imp_false] at *
    simp only [List.mem_cons, List.not_mem_nil]
    omega
  all_goals exact ⟨rfl, wordXY_of_selectors hf ‹_›⟩

theorem encodesTo_decodeE {op : Word} (hf : family op = 0xE) : EncodesTo (decodeE op) op := by
  have hfam := (toNat_family_eq_iff op _).1 hf
  unfold decodeE
  split
  case h_3 =>
    refine encodesTo_unknown ((isUnknownWord_iff op).2 (.inr (.inl ⟨hfam, ?_⟩)))
    simp only [toNat_fieldKK, imp_false] at *
    simp only [List.mem_cons, List.not_mem_nil, or_false, not_or]
    omega
  all_goals exact ⟨rfl, wordXK_of_selectors hf ‹_›⟩

theorem encodesTo_decodeF {op : Word} (hf : family op = 0xF) : EncodesTo (decodeF op) op := by
  have hfam := (toNat_family_eq_iff op _).1 hf
  unfold decodeF
  split
  case h_10 =>
    refine encodesTo_unknown ((isUnknownWord_iff op).2 (.inr (.inr ⟨hfam, ?_⟩)))
    simp only [toNat_fieldKK, imp_false] at *
    simp only [List.mem_cons, List.not_mem_nil, or_false, not_or]
    omega
  all_goals exact ⟨rfl, wordXK_of_selectors hf ‹_›⟩

theorem encodesTo_decode (op : Word) : EncodesTo (decode op) op := by
  have hfam (f : BitVec 4) (h : (family op).toNat = f.toNat) : family op = f := BitVec.eq_of_toNat_eq h
  unfold decode
  split
  case h_1 h => exact encodesTo_decode0 (hfam 0x0 h)
  case h_2 h => exact ⟨rfl, wordA_of_family (hfam 0x1 h)⟩
  case h_3 h => exact ⟨rfl, wordA_of_family (hfam 0x2 h)⟩
  case h_4 h => exact ⟨rfl, wordXK_of_family (hfam 0x3 h)⟩
  case h_5 h => exact ⟨rfl, wordXK_of_family (hfam 0x4 h)⟩
  case h_6 h => exact ⟨rfl, wordXY_of_family (hfam 0x5 h)⟩
  case h_7 h => exact ⟨rfl, wordXK_of_family (hfam 0x6 h)⟩
  case h_8 h => exact ⟨rfl, wordXK_of_family (hfam 0x7 h)⟩
  case h_9 h => exact encodesTo_decode8 (hfam 0x8 h)
  case h_10 h => exact ⟨rfl, wordXY_of_family (hfam 0x9 h)⟩
  case h_11 h => exact ⟨rfl, wordA_of_family (hfam 0xA h)⟩
  case h_12 h => exact ⟨rfl, wordA_of_family (hfam 0xB h)⟩
  case h_13 h => exact ⟨rfl, wordXK_of_family (hfam 0xC h)⟩
  case h_14 h => exact ⟨rfl, wordXY_of_family (hfam 0xD h)⟩
  case h_15 h => exact encodesTo_decodeE (hfam 0xE h)
  case h_16 =>
    have hlt := (family op).isLt
    refine encodesTo_decodeF (hfam 0xF ?_)
    simp only [imp_false] at *
    show (family op).toNat = 15
    omega

/-- A word decodes to UNKNOWN exactly when it is of R112's list. -/
theorem decode_eq_unknown_iff (op : Word) : (∃ w, decode op = .unknown w) ↔ isUnknownWord op = true := by
  constructor
  · rintro ⟨w, hw⟩
    obtain ⟨hwf, henc⟩ := encodesTo_decode op
    rw [hw] at hwf henc
    cases henc
    exact hwf
  · exact fun h => ⟨op, decode_of_isUnknownWord h⟩

/-! ### The statements -/

/-- Settles O1: the round trip of each constructor. -/
theorem decodeOfEncodeIsIdentity : Obligations.DecodeOfEncodeIsIdentity
  | .cls => Laws.RoundTrip.cls
  | .ret => Laws.RoundTrip.ret
  | .sys nnn => Laws.RoundTrip.sys nnn
  | .jmp nnn => Laws.RoundTrip.jmp nnn
  | .call nnn => Laws.RoundTrip.call nnn
  | .seByte x kk => Laws.RoundTrip.seByte x kk
  | .sneByte x kk => Laws.RoundTrip.sneByte x kk
  | .seReg x y n => Laws.RoundTrip.seReg x y n
  | .ldByte x kk => Laws.RoundTrip.ldByte x kk
  | .addByte x kk => Laws.RoundTrip.addByte x kk
  | .ldReg x y => Laws.RoundTrip.ldReg x y
  | .orReg x y => Laws.RoundTrip.orReg x y
  | .andReg x y => Laws.RoundTrip.andReg x y
  | .xorReg x y => Laws.RoundTrip.xorReg x y
  | .addReg x y => Laws.RoundTrip.addReg x y
  | .subReg x y => Laws.RoundTrip.subReg x y
  | .shr x y => Laws.RoundTrip.shr x y
  | .subnReg x y => Laws.RoundTrip.subnReg x y
  | .shl x y => Laws.RoundTrip.shl x y
  | .sneReg x y n => Laws.RoundTrip.sneReg x y n
  | .ldI nnn => Laws.RoundTrip.ldI nnn
  | .jpV0 nnn => Laws.RoundTrip.jpV0 nnn
  | .rnd x kk => Laws.RoundTrip.rnd x kk
  | .drw x y n => Laws.RoundTrip.drw x y n
  | .skp x => Laws.RoundTrip.skp x
  | .sknp x => Laws.RoundTrip.sknp x
  | .ldVxDT x => Laws.RoundTrip.ldVxDT x
  | .ldVxK x => Laws.RoundTrip.ldVxK x
  | .ldDTVx x => Laws.RoundTrip.ldDTVx x
  | .ldSTVx x => Laws.RoundTrip.ldSTVx x
  | .addI x => Laws.RoundTrip.addI x
  | .ldF x => Laws.RoundTrip.ldF x
  | .ldB x => Laws.RoundTrip.ldB x
  | .stRegs x => Laws.RoundTrip.stRegs x
  | .ldRegs x => Laws.RoundTrip.ldRegs x
  | .unknown op => Laws.RoundTrip.unknown op

/-- Settles O2: the Operation carries the word by its definition, and the instruction of a word encodes to it family by
family. -/
theorem operationKeepsRawOpcode : Obligations.OperationKeepsRawOpcode := fun op =>
  ⟨rfl, rfl, encodesTo_decode op⟩

/-- Settles O3: a word that decodes to UNKNOWN is one of R112's list, since its instruction is well-formed and encodes to
it; the list is then read as numbers. -/
theorem unknownWordsAreExactlyListed : Obligations.UnknownWordsAreExactlyListed := fun op =>
  (decode_eq_unknown_iff op).trans (isUnknownWord_iff op)

/-- Settles O4: each word decodes by evaluation. -/
theorem writtenOutWordsDecode : Obligations.WrittenOutWordsDecode := by
  unfold Obligations.WrittenOutWordsDecode
  decide

end Sys2Proof
end

section
/-! Who writes each part of the state, read off the outcome of an instruction, and what no instruction reads
(spec/10_state.md). -/

namespace Sys2Proof.Machine

/-! ### The parts no effect writes -/

theorem effect_key (i : Instr) (s : State) : (effect i s).key = s.key := by
  cases i <;> rfl

theorem effect_randOffer (i : Instr) (s : State) : (effect i s).randOffer = s.randOffer := by
  cases i <;> rfl

theorem effect_status (i : Instr) (s : State) : (effect i s).status = s.status := by
  cases i <;> rfl

/-! ### The writers of each part -/

theorem cls_or_drw_of_effect_fb_ne {i : Instr} {s : State} (h : (effect i s).fb ≠ s.fb) : i = .cls ∨ ∃ x y n, i = .drw x y n := by
  cases i with
  | cls => exact .inl rfl
  | drw x y n => exact .inr ⟨x, y, n, rfl⟩
  | _ => exact absurd rfl h

theorem store_of_effect_ram_ne {i : Instr} {s : State} (h : (effect i s).ram ≠ s.ram) : ∃ x, i = .ldB x ∨ i = .stRegs x := by
  cases i with
  | ldB x => exact ⟨x, .inl rfl⟩
  | stRegs x => exact ⟨x, .inr rfl⟩
  | _ => exact absurd rfl h

theorem call_of_effect_stack_ne {i : Instr} {s : State} (h : (effect i s).stack ≠ s.stack) : ∃ nnn, i = .call nnn := by
  cases i with
  | call nnn => exact ⟨nnn, rfl⟩
  | _ => exact absurd rfl h

theorem ret_or_call_of_effect_sp_ne {i : Instr} {s : State} (h : (effect i s).sp ≠ s.sp) : i = .ret ∨ ∃ nnn, i = .call nnn := by
  cases i with
  | ret => exact .inl rfl
  | call nnn => exact .inr ⟨nnn, rfl⟩
  | _ => exact absurd rfl h

theorem ldDTVx_of_effect_dt_ne {i : Instr} {s : State} (h : (effect i s).dt ≠ s.dt) : ∃ x, i = .ldDTVx x := by
  cases i with
  | ldDTVx x => exact ⟨x, rfl⟩
  | _ => exact absurd rfl h

theorem ldSTVx_of_effect_st_ne {i : Instr} {s : State} (h : (effect i s).st ≠ s.st) : ∃ x, i = .ldSTVx x := by
  cases i with
  | ldSTVx x => exact ⟨x, rfl⟩
  | _ => exact absurd rfl h

theorem index_writer_of_effect_i_ne {i : Instr} {s : State} (h : (effect i s).i ≠ s.i) :
    (∃ nnn, i = .ldI nnn) ∨ ∃ x, i = .addI x ∨ i = .ldF x := by
  cases i with
  | ldI nnn => exact .inl ⟨nnn, rfl⟩
  | addI x => exact .inr ⟨x, .inl rfl⟩
  | ldF x => exact .inr ⟨x, .inr rfl⟩
  | _ => exact absurd rfl h

theorem rnd_of_effect_randDraws_ne {i : Instr} {s : State} (h : (effect i s).randDraws ≠ s.randDraws) :
    ∃ x kk, i = .rnd x kk := by
  cases i with
  | rnd x kk => exact ⟨x, kk, rfl⟩
  | _ => exact absurd rfl h

theorem effect_pc_cases {i : Instr} {s : State} (hr : raises i s = none) :
    (effect i s).pc = s.pc + 2 ∨ ((effect i s).pc = s.pc + 4 ∧ IsSkip i) ∨ IsJump i := by
  have hskip (c : Bool) (hi : IsSkip i) : (s.setPc (s.pc + if c then 4 else 2)).pc = s.pc + 2 ∨
      ((s.setPc (s.pc + if c then 4 else 2)).pc = s.pc + 4 ∧ IsSkip i) ∨ IsJump i := by
    cases c
    · exact .inl rfl
    · exact .inr (.inl ⟨rfl, hi⟩)
  cases i with
  | ret => exact .inr (.inr (.inl rfl))
  | sys nnn => exact .inr (.inr (.inr ⟨nnn, .inl rfl⟩))
  | jmp nnn => exact .inr (.inr (.inr ⟨nnn, .inr (.inl rfl)⟩))
  | call nnn => exact .inr (.inr (.inr ⟨nnn, .inr (.inr (.inl rfl))⟩))
  | jpV0 nnn => exact .inr (.inr (.inr ⟨nnn, .inr (.inr (.inr rfl))⟩))
  | seByte x kk => exact hskip _ (.inl ⟨x, kk, .inl rfl⟩)
  | sneByte x kk => exact hskip _ (.inl ⟨x, kk, .inr rfl⟩)
  | seReg x y n => exact hskip _ (.inr (.inl ⟨x, y, n, .inl rfl⟩))
  | sneReg x y n => exact hskip _ (.inr (.inl ⟨x, y, n, .inr rfl⟩))
  | skp x => exact hskip _ (.inr (.inr ⟨x, .inl rfl⟩))
  | sknp x => exact hskip _ (.inr (.inr ⟨x, .inr rfl⟩))
  | unknown op => exact nomatch hr
  | _ => exact .inl rfl

/-! ### The writers of a register -/

theorem eq_of_getV_setV_ne {s : State} {x j : RegIx} {b : Byte} (h : (s.setV x b).getV j ≠ s.getV j) : j = x :=
  Classical.byContradiction fun hj => h (s.getV_setV_ne b hj)

/-- A result and a flag write `Vx` and VF. -/
theorem eq_of_getV_setResultFlag_ne {s : State} {x j : RegIx} {r f : Byte}
    (h : (s.setResultFlag x r f).getV j ≠ s.getV j) : j = x ∨ j = 15 := by
  by_contra hj
  obtain ⟨hx, hvf⟩ := not_or.1 hj
  exact h (by rw [State.getV_setResultFlag, if_neg (show j ≠ vf from hvf), if_neg hx])

/-- `V0` to `Vx` hold the bytes from `I` up, and the registers above `x` are kept (R195). -/
theorem getV_effect_ldRegs (x j : RegIx) (s : State) :
    (effect (.ldRegs x) s).getV j = if j ≤ x then s.ram.read (s.base + j.val) else s.getV j := by
  have hx := x.isLt
  show (s.setRegsFrom 0 (s.ram.readList s.base (regCount x))).getV j = _
  rw [State.getV_setRegsFrom _ _ _ (by rw [Memory.length_readList, regCount]; omega)]
  simp only [Memory.getElem_readList, Memory.length_readList, regCount, Fin.le_def, Nat.zero_le, true_and,
    Nat.sub_zero, Nat.lt_succ_iff]
  split <;> rfl

/-- The flag writers write their destination and VF (R31, R32). -/
theorem regWriter_of_flagWriter {i : Instr} {x y j : RegIx}
    (hi : i = .addReg x y ∨ i = .subReg x y ∨ i = .shr x y ∨ i = .subnReg x y ∨ i = .shl x y)
    (hj : j = x ∨ j = 15) : RegWriter i j := by
  rcases hj with rfl | rfl
  · exact .inr (.inl ⟨y, .inr (.inr (.inr (.inr hi)))⟩)
  · exact .inr (.inr (.inr (.inr (.inr ⟨rfl, .inl ⟨x, y, hi⟩⟩))))

theorem regWriter_of_effect_ne {i : Instr} {s : State} {j : RegIx} (h : (effect i s).getV j ≠ s.getV j) : RegWriter i j := by
  cases i with
  | ldByte x kk =>
    obtain rfl : j = x := eq_of_getV_setV_ne (s := s) h
    exact .inl ⟨kk, .inl rfl⟩
  | addByte x kk =>
    obtain rfl : j = x := eq_of_getV_setV_ne (s := s) h
    exact .inl ⟨kk, .inr (.inl rfl)⟩
  | rnd x kk =>
    obtain rfl : j = x := eq_of_getV_setV_ne (s := s) h
    exact .inl ⟨kk, .inr (.inr rfl)⟩
  | ldReg x y =>
    obtain rfl : j = x := eq_of_getV_setV_ne (s := s) h
    exact .inr (.inl ⟨y, .inl rfl⟩)
  | orReg x y =>
    obtain rfl : j = x := eq_of_getV_setV_ne (s := s) h
    exact .inr (.inl ⟨y, .inr (.inl rfl)⟩)
  | andReg x y =>
    obtain rfl : j = x := eq_of_getV_setV_ne (s := s) h
    exact .inr (.inl ⟨y, .inr (.inr (.inl rfl))⟩)
  | xorReg x y =>
    obtain rfl : j = x := eq_of_getV_setV_ne (s := s) h
    exact .inr (.inl ⟨y, .inr (.inr (.inr (.inl rfl)))⟩)
  | addReg x y => exact regWriter_of_flagWriter (.inl rfl) (eq_of_getV_setResultFlag_ne (s := s) h)
  | subReg x y => exact regWriter_of_flagWriter (.inr (.inl rfl)) (eq_of_getV_setResultFlag_ne (s := s) h)
  | shr x y => exact regWriter_of_flagWriter (.inr (.inr (.inl rfl))) (eq_of_getV_setResultFlag_ne (s := s) h)
  | subnReg x y =>
    exact regWriter_of_flagWriter (.inr (.inr (.inr (.inl rfl)))) (eq_of_getV_setResultFlag_ne (s := s) h)
  | shl x y =>
    exact regWriter_of_flagWriter (.inr (.inr (.inr (.inr rfl)))) (eq_of_getV_setResultFlag_ne (s := s) h)
  | drw x y n =>
    obtain rfl : j = vf := eq_of_getV_setV_ne (s := s) h
    exact .inr (.inr (.inr (.inr (.inr ⟨rfl, .inr ⟨x, y, n, rfl⟩⟩))))
  | ldVxDT x =>
    obtain rfl : j = x := eq_of_getV_setV_ne (s := s) h
    exact .inr (.inr (.inl rfl))
  | ldVxK x =>
    obtain rfl : j = x := eq_of_getV_setV_ne (s := s) h
    exact .inr (.inr (.inr (.inl rfl)))
  | ldRegs x =>
    rw [getV_effect_ldRegs] at h
    exact .inr (.inr (.inr (.inr (.inl ⟨x, Classical.byContradiction fun hj => h (if_neg hj), rfl⟩))))
  | _ => exact absurd rfl h

/-! ### From the effect to `exec` -/

/-- A part that an error leaves and that an instruction has changed is one its effect changes. -/
theorem effect_ne_of_exec {α : Type} {i : Instr} {s t : State} (part : State → α)
    (hpart : ∀ e, part (s.haltedWith e) = part s) (h : exec i s = .next t) (hne : part t ≠ part s) :
    part (effect i s) ≠ part s := by
  rcases exec_cases h with ⟨e, -, rfl⟩ | ⟨-, -, rfl⟩ | ⟨-, rfl⟩
  · exact absurd (hpart e) hne
  · exact absurd rfl hne
  · exact hne

/-- A part that neither an error nor an effect writes is kept. -/
theorem eq_of_exec {α : Type} {i : Instr} {s t : State} (part : State → α)
    (hpart : ∀ e, part (s.haltedWith e) = part s) (heffect : part (effect i s) = part s) (h : exec i s = .next t) :
    part t = part s :=
  Classical.byContradiction fun hne => effect_ne_of_exec part hpart h hne heffect

theorem exec_key {i : Instr} {s t : State} (h : exec i s = .next t) : t.key = s.key :=
  eq_of_exec State.key (fun _ => rfl) (effect_key i s) h

theorem exec_randOffer {i : Instr} {s t : State} (h : exec i s = .next t) : t.randOffer = s.randOffer :=
  eq_of_exec State.randOffer (fun _ => rfl) (effect_randOffer i s) h

theorem regWriter_of_exec_ne {i : Instr} {s t : State} {j : RegIx} (h : exec i s = .next t) (hj : t.getV j ≠ s.getV j) :
    RegWriter i j :=
  regWriter_of_effect_ne (effect_ne_of_exec (·.getV j) (fun _ => rfl) h hj)

theorem canRaise_of_exec_ne {i : Instr} {s t : State} (h : exec i s = .next t) (hne : t.status ≠ s.status) : CanRaise i := by
  rcases exec_cases h with ⟨e, hr, -⟩ | ⟨-, -, rfl⟩ | ⟨-, rfl⟩
  · exact canRaise_of_raises hr
  · exact absurd rfl hne
  · exact absurd (effect_status i s) hne

theorem ldVxK_of_stalls {i : Instr} {s : State} (h : stalls i s = true) : ∃ x, i = .ldVxK x := by
  cases i with
  | ldVxK x => exact ⟨x, rfl⟩
  | _ => cases h

theorem exec_pc_cases {i : Instr} {s t : State} (h : exec i s = .next t) :
    t.pc = s.pc + 2 ∨ (t.pc = s.pc + 4 ∧ IsSkip i) ∨ IsJump i ∨ (t = s ∧ ∃ x, i = .ldVxK x) ∨
      ∃ e, t = s.haltedWith e := by
  rcases exec_cases h with ⟨e, -, ht⟩ | ⟨-, hst, ht⟩ | ⟨hr, rfl⟩
  · exact .inr (.inr (.inr (.inr ⟨e, ht⟩)))
  · exact .inr (.inr (.inr (.inl ⟨ht, ldVxK_of_stalls hst⟩)))
  · rcases effect_pc_cases hr with hpc | hpc | hi
    · exact .inl hpc
    · exact .inr (.inl hpc)
    · exact .inr (.inr (.inl hi))

/-! ### What an instruction does not read -/

/-- A run of register writes reads nothing but the registers. -/
theorem State.setRegsFrom_v_congr (bs : List Byte) {s s' : State} (h : s'.v = s.v) (k : Nat) :
    (s'.setRegsFrom k bs).v = (s.setRegsFrom k bs).v := by
  induction bs generalizing s s' k with
  | nil => exact h
  | cons b bs ih => exact ih (by rw [State.setV_v, State.setV_v, h]) (k + 1)

/-- The state with the model's two fields of the random input replaced. -/
def State.withRand (s : State) (r : Option Byte) (d : Nat) : State := { s with randOffer := r, randDraws := d }

theorem raises_withRand (i : Instr) (s : State) (r : Option Byte) (d : Nat) :
    raises i (s.withRand r d) = raises i s := by
  cases i <;> rfl

theorem stalls_withRand (i : Instr) (s : State) (r : Option Byte) (d : Nat) :
    stalls i (s.withRand r d) = stalls i s := by
  cases i <;> rfl

theorem effect_withRand {i : Instr} (hi : ∀ x kk, i ≠ .rnd x kk) (s : State) (r : Option Byte) (d : Nat) :
    effect i (s.withRand r d) = (effect i s).withRand r d := by
  cases i with
  | rnd x kk => exact absurd rfl (hi x kk)
  | ldRegs x =>
    exact congrArg (fun v => ({ s with v := v, pc := s.pc + 2 } : State).withRand r d)
      (State.setRegsFrom_v_congr (s := s) (s' := s.withRand r d) _ rfl 0)
  | _ => rfl

theorem outcome_withRand {i : Instr} (hi : ∀ x kk, i ≠ .rnd x kk) (s : State) (r : Option Byte) (d : Nat) :
    outcome i (s.withRand r d) = (outcome i s).withRand r d := by
  unfold outcome
  rw [raises_withRand, stalls_withRand, effect_withRand hi]
  cases raises i s with
  | some e => rfl
  | none => cases stalls i s <;> rfl

theorem raises_setSt (i : Instr) (s : State) (b : Byte) : raises i (s.setSt b) = raises i s := by
  cases i <;> rfl

theorem stalls_setSt (i : Instr) (s : State) (b : Byte) : stalls i (s.setSt b) = stalls i s := by
  cases i <;> rfl

theorem effect_setSt (i : Instr) (s : State) (b : Byte) : ∃ b', effect i (s.setSt b) = (effect i s).setSt b' := by
  cases i with
  | ldSTVx x => exact ⟨s.getV x, rfl⟩
  | ldRegs x =>
    exact ⟨b, congrArg (fun v => ({ s with v := v, pc := s.pc + 2 } : State).setSt b)
      (State.setRegsFrom_v_congr (s := s) (s' := s.setSt b) _ rfl 0)⟩
  | _ => exact ⟨b, rfl⟩

theorem outcome_setSt (i : Instr) (s : State) (b : Byte) : ∃ b', outcome i (s.setSt b) = (outcome i s).setSt b' := by
  unfold outcome
  rw [raises_setSt, stalls_setSt]
  cases raises i s with
  | some e => exact ⟨b, rfl⟩
  | none =>
    cases stalls i s with
    | true => exact ⟨b, rfl⟩
    | false => exact effect_setSt i s b

/-! ### The statements -/

/-- Settles O14: each clause is the writer lemma of its part. -/
theorem onlyNamedInstructionsWriteEachPart : Obligations.OnlyNamedInstructionsWriteEachPart := by
  intro i s t h
  refine ⟨exec_key h, exec_randOffer h, fun j => regWriter_of_exec_ne h, exec_pc_cases h, canRaise_of_exec_ne h,
    ?fb, ?ram, ?stack, ?sp, ?dt, ?st, ?i, ?randDraws⟩
  case fb => exact fun hne => cls_or_drw_of_effect_fb_ne (effect_ne_of_exec State.fb (fun _ => rfl) h hne)
  case ram => exact fun hne => store_of_effect_ram_ne (effect_ne_of_exec State.ram (fun _ => rfl) h hne)
  case stack => exact fun hne => call_of_effect_stack_ne (effect_ne_of_exec State.stack (fun _ => rfl) h hne)
  case sp => exact fun hne => ret_or_call_of_effect_sp_ne (effect_ne_of_exec State.sp (fun _ => rfl) h hne)
  case dt => exact fun hne => ldDTVx_of_effect_dt_ne (effect_ne_of_exec State.dt (fun _ => rfl) h hne)
  case st => exact fun hne => ldSTVx_of_effect_st_ne (effect_ne_of_exec State.st (fun _ => rfl) h hne)
  case i => exact fun hne => index_writer_of_effect_i_ne (effect_ne_of_exec State.i (fun _ => rfl) h hne)
  case randDraws => exact fun hne => rnd_of_effect_randDraws_ne (effect_ne_of_exec State.randDraws (fun _ => rfl) h hne)

/-- The writers of VF: the flag writers, and the writers of `Vx` with x = F (R31, R32). -/
theorem vf_writer_of_regWriter {i : Instr} (h : RegWriter i 15) :
    (∃ x y, i = .addReg x y ∨ i = .subReg x y ∨ i = .subnReg x y ∨ i = .shr x y ∨ i = .shl x y) ∨
    (∃ x y n, i = .drw x y n) ∨
    (∃ kk, i = .ldByte 15 kk ∨ i = .addByte 15 kk ∨ i = .rnd 15 kk) ∨
    (∃ y, i = .ldReg 15 y ∨ i = .orReg 15 y ∨ i = .andReg 15 y ∨ i = .xorReg 15 y) ∨
    i = .ldVxDT 15 ∨ i = .ldVxK 15 ∨ i = .ldRegs 15 := by
  rcases h with ⟨kk, h⟩ | ⟨y, h⟩ | h | h | ⟨x, hx, h⟩ | ⟨-, ⟨x, y, h⟩ | ⟨x, y, n, h⟩⟩
  · exact .inr (.inr (.inl ⟨kk, h⟩))
  · rcases h with h | h | h | h | h
    · exact .inr (.inr (.inr (.inl ⟨y, .inl h⟩)))
    · exact .inr (.inr (.inr (.inl ⟨y, .inr (.inl h)⟩)))
    · exact .inr (.inr (.inr (.inl ⟨y, .inr (.inr (.inl h))⟩)))
    · exact .inr (.inr (.inr (.inl ⟨y, .inr (.inr (.inr h))⟩)))
    · exact .inl ⟨15, y, by tauto⟩
  · exact .inr (.inr (.inr (.inr (.inl h))))
  · exact .inr (.inr (.inr (.inr (.inr (.inl h)))))
  · obtain rfl : x = 15 := le_antisymm (Fin.le_last x) hx
    exact .inr (.inr (.inr (.inr (.inr (.inr h)))))
  · exact .inl ⟨x, y, by tauto⟩
  · exact .inr (.inl ⟨x, y, n, h⟩)

/-- Settles O15: a changed VF makes the instruction a writer of register 15. -/
theorem vfChangesOnlyAsFlagOrDestination : Obligations.VfChangesOnlyAsFlagOrDestination := fun _ _ _ h hne =>
  vf_writer_of_regWriter (regWriter_of_exec_ne h hne)

/-- Settles O16: the outcome commutes with replacing the random input. -/
theorem onlyRndDependsOnRandomInput : Obligations.OnlyRndDependsOnRandomInput := by
  intro i s t r d hi h
  obtain ⟨hsp, rfl⟩ := exec_next_iff.1 h
  exact exec_next_iff.2 ⟨hsp, (outcome_withRand hi s r d).symm⟩

/-- Settles O17: the outcome commutes with replacing ST, up to the ST it ends with. -/
theorem noInstructionReadsSoundTimer : Obligations.NoInstructionReadsSoundTimer := by
  intro i s t b h
  obtain ⟨hsp, rfl⟩ := exec_next_iff.1 h
  obtain ⟨b', hb'⟩ := outcome_setSt i s b
  exact ⟨b', exec_next_iff.2 ⟨hsp, hb'.symm⟩⟩

end Sys2Proof.Machine
end

section
/-! The step and the invariant of a run (spec/30_encoding.md, spec/60_exceptions.md): what a step of a running core and of a
halted one is, which errors it can end in, and that it keeps `State.Inv`. -/

namespace Sys2Proof.Machine

/-! ### The step -/

theorem step_of_fetch_ok {s : State} (h : s.status = .running) (hpc : s.pc.toNat + 1 ≤ 0xFFF) :
    step s = exec (decode s.fetchWord) s := by
  rw [step_running h, checkRange_ok (.inr hpc)]

theorem step_of_fetch_bad {s : State} (h : s.status = .running) (hpc : 0xFFF < s.pc.toNat + 1) :
    step s = .next (s.haltedWith (.addressOutOfRange s.pc (max s.pc.toNat 0x1000))) := by
  rw [step_running h, checkRange_bad ⟨Nat.two_pos, hpc⟩, raise_eq]

theorem step_of_opcodeAt {s : State} {op : Word} (h : s.status = .running) (hop : OpcodeAt s op) :
    step s = exec (decode op) s := by
  rw [step_of_fetch_ok h hop.1, hop.fetchWord_eq]

/-- The word a step fetches lies at `PC`. -/
theorem opcodeAt_fetchWord {s : State} (hpc : s.pc.toNat + 1 ≤ 0xFFF) : OpcodeAt s s.fetchWord :=
  ⟨hpc, toNat_opcodeOf _ _⟩

/-- No step is refused, and the one fault is that of an illegal `SP`. -/
theorem step_next_or_fault (s : State) :
    (∃ t, step s = .next t) ∨ (16 < s.sp.toNat ∧ step s = .fault .illegalStackPointer) := by
  cases hs : s.status with
  | halted e => exact .inl ⟨s, step_halted hs⟩
  | running =>
    by_cases hpc : s.pc.toNat + 1 ≤ 0xFFF
    · rw [step_of_fetch_ok hs hpc]
      by_cases hsp : usesStack (decode s.fetchWord) = true → s.sp.toNat ≤ 16
      · exact .inl ⟨_, exec_eq hsp⟩
      · obtain ⟨hi, hsp⟩ := Classical.not_imp.1 hsp
        exact .inr ⟨by omega, exec_illegal hi (by omega)⟩
    · exact .inl ⟨_, step_of_fetch_bad hs (by omega)⟩

/-- A part that neither an error nor an instruction writes is kept by every step. -/
theorem eq_of_step {α : Type} {s t : State} (part : State → α) (herror : ∀ e, part (s.haltedWith e) = part s)
    (hexec : ∀ {i t}, exec i s = .next t → part t = part s) (h : step s = .next t) : part t = part s := by
  rcases step_cases h with ⟨-, rfl⟩ | ⟨-, -, rfl⟩ | ⟨-, -, hi⟩
  · rfl
  · exact herror _
  · exact hexec hi

theorem step_key {s t : State} (h : step s = .next t) : t.key = s.key :=
  eq_of_step State.key (fun _ => rfl) exec_key h

theorem step_randOffer {s t : State} (h : step s = .next t) : t.randOffer = s.randOffer :=
  eq_of_step State.randOffer (fun _ => rfl) exec_randOffer h

/-- Settles O5: the word at `PC` is the fetched one, and its range check passes. -/
theorem stepRunsDecodedInstruction : Obligations.StepRunsDecodedInstruction := by
  rintro s op i hrun hop rfl
  exact step_of_opcodeAt hrun hop

/-- Settles O6: the range check of the fetch fails, and the first address above 0xFFF is `max PC 0x1000`. -/
theorem fetchPastEndOfRamHalts : Obligations.FetchPastEndOfRamHalts := by
  intro s hrun hpc
  have hbad : max s.pc.toNat 0x1000 = if 0xFFF < s.pc.toNat then s.pc.toNat else s.pc.toNat + 1 := by
    split <;> omega
  rw [step_of_fetch_bad hrun hpc, hbad]

/-- Settles O10: the one fault needs an illegal `SP`. -/
theorem everyStepAnswersNextState : Obligations.EveryStepAnswersNextState := by
  intro s hsp
  rcases step_next_or_fault s with ht | ⟨hillegal, -⟩
  · exact ht
  · exact absurd hillegal (not_lt.2 hsp)

/-! ### Errors -/

/-- The error a running core's step ends in: the fetch range check first, then the instruction's own (R254). -/
def stepRaises (s : State) : Option CoreError :=
  if 0xFFF < s.pc.toNat + 1 then some (.addressOutOfRange s.pc (max s.pc.toNat 0x1000))
  else raises (decode s.fetchWord) s

/-- A running core's step halts with the error it raises and nothing else changed, or leaves the core running. -/
theorem step_halts_or_runs {s t : State} (hrun : s.status = .running) (h : step s = .next t) :
    (∃ e, stepRaises s = some e ∧ t = s.haltedWith e) ∨ (stepRaises s = none ∧ t.status = .running) := by
  unfold stepRaises
  rcases step_cases h with ⟨⟨e, hs⟩, -⟩ | ⟨-, hpc, rfl⟩ | ⟨-, hpc, hexec⟩
  · rw [hrun] at hs
    cases hs
  · rw [if_pos hpc]
    exact .inl ⟨_, rfl, rfl⟩
  · rw [if_neg (by omega)]
    rcases exec_cases hexec with ⟨e, hr, ht⟩ | ⟨hr, -, rfl⟩ | ⟨hr, rfl⟩
    · exact .inl ⟨e, hr, ht⟩
    · exact .inr ⟨hr, hrun⟩
    · exact .inr ⟨hr, (effect_status _ s).trans hrun⟩

theorem pc_of_stepRaises {s : State} {e : CoreError} (h : stepRaises s = some e) : e.pc = s.pc := by
  unfold stepRaises at h
  split at h
  · cases h
    rfl
  · exact pc_of_raises h

/-- The error a step raises is the one whose cause is listed. -/
theorem stepRaises_eq_some_iff {s : State} {e : CoreError} : stepRaises s = some e ↔ StepError s e := by
  unfold stepRaises StepError
  by_cases hpc : 0xFFF < s.pc.toNat + 1
  · rw [if_pos hpc]
    constructor
    · rintro ⟨⟩
      exact .inl ⟨_, ⟨Nat.two_pos, hpc, rfl⟩, rfl⟩
    · rintro (⟨bad, ⟨-, -, rfl⟩, rfl⟩ | ⟨op, hop, -⟩)
      · rfl
      · exact absurd hop.1 (by omega)
  · rw [if_neg hpc, raises_eq_some_iff]
    constructor
    · exact fun he => .inr ⟨s.fetchWord, opcodeAt_fetchWord (by omega), he⟩
    · rintro (⟨bad, ⟨-, hlast, -⟩, -⟩ | ⟨op, hop, he⟩)
      · exact absurd hlast hpc
      · rwa [hop.fetchWord_eq]

/-- Settles O11: a step that leaves `Running` is one that raises. -/
theorem errorsArePrecise : Obligations.ErrorsArePrecise := by
  intro s t hrun h hne
  rcases step_halts_or_runs hrun h with ⟨e, he, ht⟩ | ⟨-, ht⟩
  · exact ⟨e, pc_of_stepRaises he, ht⟩
  · exact absurd ht hne

/-- Settles O12: the error a step halts with is the one it raises, and that is the one whose cause holds. -/
theorem stepHaltsExactlyOnListedCauses : Obligations.StepHaltsExactlyOnListedCauses := by
  intro s t e hrun h
  rw [← stepRaises_eq_some_iff]
  rcases step_halts_or_runs hrun h with ⟨e', he', rfl⟩ | ⟨hnone, ht⟩
  · rw [he', Option.some.injEq]
    exact Status.halted.injEq e' e ▸ Iff.rfl
  · rw [hnone, ht]
    exact ⟨fun hs => (nomatch hs), fun hs => (nomatch hs)⟩

/-- Settles O13: CALL and RET are the instructions that use the stack. -/
theorem illegalStackPointerFaults : Obligations.IllegalStackPointerFaults := fun _ _ h =>
  ⟨exec_illegal rfl h, exec_illegal rfl h⟩

/-! ### The invariant of a run -/

/-- An error leaves the invariant: it records the address of the instruction. -/
theorem State.Inv.haltedWith {s : State} (h : s.Inv) {e : CoreError} (he : e.pc = s.pc) : (s.haltedWith e).Inv where
  ram := h.ram
  sp := h.sp
  stack := h.stack
  pc := h.pc
  halted := by
    rintro _ ⟨⟩
    exact he

/-- The bytes of an instruction that does not raise exist (R74). -/
theorem access_in_ram {i : Instr} {s : State} (h : raises i s = none) (hn : 0 < accessCount i) :
    s.base + accessCount i ≤ Config.ramSize := by
  rw [raises_of_access s hn, Option.map_eq_none_iff, firstBadAddr_none] at h
  show s.base + accessCount i ≤ 4096
  omega

theorem wf_ram_effect {i : Instr} {s : State} (hr : raises i s = none) (h : s.ram.wf = true) :
    (effect i s).ram.wf = true := by
  cases i with
  | ldB x => exact Memory.wf_writeList h (access_in_ram (i := .ldB x) hr (Nat.succ_pos 2))
  | stRegs x =>
    exact Memory.wf_writeList h (by
      rw [State.length_regsUpTo]
      exact access_in_ram (i := .stRegs x) hr (Nat.succ_pos x.val))
  | _ => exact h

theorem toNat_pred_of_pos {b : Byte} (h : 0 < b.toNat) : (b - 1).toNat = b.toNat - 1 := by
  bv_omega

theorem toNat_succ_of_lt {b : Byte} (h : b.toNat < 16) : (b + 1).toNat = b.toNat + 1 := by
  bv_omega

theorem sp_effect_le {i : Instr} {s : State} (hr : raises i s = none) (h : s.sp.toNat ≤ 16) :
    (effect i s).sp.toNat ≤ 16 := by
  cases i with
  | ret =>
    have h0 : s.sp.toNat ≠ 0 := fun h0 => nomatch (if_pos h0).symm.trans hr
    show (s.sp - 1).toNat ≤ 16
    rw [toNat_pred_of_pos (by omega)]
    omega
  | call nnn =>
    have h16 : s.sp.toNat ≠ 16 := fun h16 => nomatch (if_pos h16).symm.trans hr
    show (s.sp + 1).toNat ≤ 16
    rw [toNat_succ_of_lt (by omega)]
    omega
  | _ => exact h

theorem stack_effect_le {i : Instr} {s : State} (hpc : s.pc.toNat + 1 ≤ 0xFFF) (h : ∀ j, (s.stackAt j).toNat ≤ 0xFFE)
    (j : Fin 16) : ((effect i s).stackAt j).toNat ≤ 0xFFE := by
  cases i with
  | call nnn =>
    show ((s.setStack (Fin.ofNat 16 s.sp.toNat) s.pc (s.sp + 1)).stackAt j).toNat ≤ _
    rw [State.stackAt_setStack]
    split
    · omega
    · exact h j
  | _ => exact h j

/-- From an address that can be fetched `PC` comes at most to `0xFFF + 0xFF`, the largest target of JP V0 (entry U20 of
spec/93). -/
theorem pc_effect_le {i : Instr} {s : State} (hpc : s.pc.toNat + 1 ≤ 0xFFF) (h : ∀ j, (s.stackAt j).toNat ≤ 0xFFE) :
    (effect i s).pc.toNat ≤ 0x10FE := by
  have hadvance (w k : Word) (hw : w.toNat ≤ 0xFFE) (hk : k.toNat ≤ 4) : (w + k).toNat ≤ 0x10FE := by
    rw [BitVec.toNat_add]; omega
  have hskip (c : Bool) : (s.pc + if c then 4 else 2).toNat ≤ 0x10FE :=
    hadvance _ _ (by omega) (by cases c <;> decide)
  have himm (nnn : Addr12) : (addrImm nnn).toNat ≤ 0xFFF := by
    rw [toNat_addrImm]; omega
  cases i with
  | ret => exact hadvance _ 2 (h _) (by decide)
  | sys nnn => exact (himm nnn).trans (by decide)
  | jmp nnn => exact (himm nnn).trans (by decide)
  | call nnn => exact (himm nnn).trans (by decide)
  | jpV0 nnn =>
    have hnnn := himm nnn
    have hb := (s.getV 0).isLt
    show (addrImm nnn + byteImm (s.getV 0)).toNat ≤ _
    rw [BitVec.toNat_add, toNat_byteImm]
    omega
  | seByte x kk => exact hskip _
  | sneByte x kk => exact hskip _
  | seReg x y n => exact hskip _
  | sneReg x y n => exact hskip _
  | skp x => exact hskip _
  | sknp x => exact hskip _
  | unknown op => show s.pc.toNat ≤ _; omega
  | _ => exact hadvance s.pc 2 (by omega) (by decide)

/-- Settles O8: a halted core stands still, an error writes only STATUS, and an effect keeps each part in its bounds. -/
theorem stepKeepsRunInvariant : Obligations.StepKeepsRunInvariant := by
  intro s t hinv h
  rcases step_cases h with ⟨-, rfl⟩ | ⟨-, -, rfl⟩ | ⟨hrun, hpc, hexec⟩
  · exact hinv
  · exact hinv.haltedWith rfl
  · rcases exec_cases hexec with ⟨e, hr, rfl⟩ | ⟨-, -, rfl⟩ | ⟨hr, rfl⟩
    · exact hinv.haltedWith (pc_of_raises hr)
    · exact hinv
    · have hstatus := (effect_status (decode s.fetchWord) s).trans hrun
      exact ⟨wf_ram_effect hr hinv.ram, sp_effect_le hr hinv.sp, stack_effect_le hpc hinv.stack,
        pc_effect_le hpc hinv.stack, fun e he => nomatch hstatus.symm.trans he⟩

/-- Settles O9: each bound is one on a listed reset value. -/
theorem resetMeetsRunInvariant : Obligations.ResetMeetsRunInvariant where
  ram := rfl
  sp := by decide
  stack := by decide
  pc := by decide
  halted _ h := nomatch h

end Sys2Proof.Machine
end

section
/-! The instructions that access memory from `I` up, but for DRW (spec/42_index_memory.md): LD B, LD [I], LD Vx, [I], and
the fetch of a word that LD [I] has stored. -/

namespace Sys2Proof.Machine

/-! ### Bytes stored at `I` -/

/-- The ending of an instruction that stores bytes from `I` up. -/
theorem State.store_advance_effect (s : State) (bs : List Byte) :
    let t := (s.setRam (s.ram.writeList s.base bs)).advance 2
    (∀ k (h : k < bs.length), t.ram.read (s.base + k) = bs[k]) ∧ BytesKept s.base bs.length s t ∧
      t.pc = s.pc + 2 ∧ Kept [.ram, .pc] s t := by
  refine ⟨?stored, ?others, rfl, Kept.of_overwrite rfl⟩
  case stored => exact fun k h => Memory.read_writeList_at bs s.ram s.base k h
  case others => exact fun b hb => Memory.read_writeList_outside bs s.ram hb

/-- The three BCD digits as numbers (R193). -/
theorem toNat_bcdDigits (b : Byte) : ((bcdDigits b)[0]).toNat = b.toNat / 100 ∧
    ((bcdDigits b)[1]).toNat = b.toNat / 10 % 10 ∧ ((bcdDigits b)[2]).toNat = b.toNat % 10 := by
  have hb := b.isLt
  refine ⟨?_, ?_, ?_⟩
  · exact Nat.mod_eq_of_lt (by omega)
  · exact Nat.mod_eq_of_lt (by omega)
  · exact Nat.mod_eq_of_lt (by omega)

/-! ### The encodings -/

theorem decode_patXKK_F_33 (x : RegIx) : decode (patXKK 0xF x 0x33) = .ldB x :=
  (congrArg decode (patXKK_eq 0xF x 0x33)).trans (Laws.RoundTrip.ldB x rfl)

theorem decode_patXKK_F_55 (x : RegIx) : decode (patXKK 0xF x 0x55) = .stRegs x :=
  (congrArg decode (patXKK_eq 0xF x 0x55)).trans (Laws.RoundTrip.stRegs x rfl)

theorem decode_patXKK_F_65 (x : RegIx) : decode (patXKK 0xF x 0x65) = .ldRegs x :=
  (congrArg decode (patXKK_eq 0xF x 0x65)).trans (Laws.RoundTrip.ldRegs x rfl)

/-! ### The statements -/

/-- Settles O39: LD B stores the three digits. -/
theorem ldBStoresDigits : Obligations.LdBStoresDigits := by
  intro x s
  have hn : 0 < accessCount (.ldB x) := Nat.succ_pos 2
  refine ⟨decode_patXKK_F_33 x, fun h => ?ok, fun h => exec_access_bad hn h⟩
  case ok =>
    obtain ⟨hread, hothers, hpc, hkept⟩ := s.store_advance_effect (bcdDigits (s.getV x))
    obtain ⟨h0, h1, h2⟩ := toNat_bcdDigits (s.getV x)
    refine ⟨_, exec_access_ok hn h, ?_, ?_, ?_, hothers, hpc, hkept⟩
    · exact (congrArg BitVec.toNat (hread 0 (by simp))).trans h0
    · exact (congrArg BitVec.toNat (hread 1 (by simp))).trans h1
    · exact (congrArg BitVec.toNat (hread 2 (by simp))).trans h2

/-- Settles O40: LD [I] stores `V0` to `Vx`, the byte at `I + j` from `V[j]`. -/
theorem storeRegistersAtI : Obligations.StoreRegistersAtI := by
  intro x s
  have hn : 0 < accessCount (.stRegs x) := Nat.succ_pos x.val
  refine ⟨decode_patXKK_F_55 x, fun h => ?ok, fun h => exec_access_bad hn h⟩
  case ok =>
    obtain ⟨hread, hothers, hpc, hkept⟩ := s.store_advance_effect (s.regsUpTo x)
    rw [State.length_regsUpTo] at hothers
    refine ⟨_, exec_access_ok hn h, fun j hj => ?stored, hothers, hpc, hkept⟩
    case stored =>
      have hlt : j.val < (s.regsUpTo x).length := by
        rw [State.length_regsUpTo]
        exact Nat.lt_succ_of_le hj
      exact (hread j.val hlt).trans (s.getElem_regsUpTo x j hlt)

/-- Settles O41: LD Vx, [I] loads `V0` to `Vx`, `V[j]` from the byte at `I + j`. -/
theorem loadRegistersFromI : Obligations.LoadRegistersFromI := by
  intro x s
  have hn : 0 < accessCount (.ldRegs x) := Nat.succ_pos x.val
  refine ⟨decode_patXKK_F_65 x, fun h => ?ok, fun h => exec_access_bad hn h⟩
  case ok =>
    refine ⟨effect (.ldRegs x) s, exec_access_ok hn h, fun j hj => ?loaded, fun j hj => ?others, rfl,
      Kept.of_overwrite rfl⟩
    case loaded => rw [getV_effect_ldRegs, if_pos hj]
    case others => rw [getV_effect_ldRegs, if_neg (not_le.2 hj)]

/-- Settles O18: the two bytes at the new `PC` are the stored `V0` and `V1`, so the next step fetches their word. -/
theorem storedWordIsExecutedNext : Obligations.StoredWordIsExecutedNext := by
  intro s x hrun hx hi hrange
  obtain ⟨-, hok, -⟩ := storeRegistersAtI x s
  obtain ⟨t, hexec, hstored, -, hpc, hkept⟩ := hok hrange
  have hbase : t.pc.toNat = s.base := by rw [hpc, ← hi, State.base]
  have h0 : t.ram.read t.pc.toNat = s.getV 0 := hbase ▸ hstored 0 (Fin.zero_le x)
  have h1 : t.ram.read (t.pc.toNat + 1) = s.getV 1 := hbase ▸ hstored 1 hx
  refine ⟨t, hexec, step_of_opcodeAt ((hkept.status (by decide)).trans hrun) ⟨?inRam, ?word⟩⟩
  case inRam =>
    have : s.base + x.val ≤ 0xFFF := hrange
    omega
  case word =>
    have hv0 := (s.getV 0).isLt
    have hv1 := (s.getV 1).isLt
    rw [h0, h1, BitVec.toNat_ofNat, Nat.mod_eq_of_lt (by omega)]

end Sys2Proof.Machine
end

section
/-! The blit and DRW (spec/43_display.md). The blit flips the cells on which the sprite has a 1 bit, one after another; the
cells are distinct, since a sprite has at most 15 rows and 8 columns, so each is flipped once. -/

namespace Sys2Proof.Machine

/-! ### The blit as flips of a list of cells -/

/-- A pixel position: row and column. -/
abbrev PixelPos := Fin 32 × Fin 64

/-- The columns of a sprite row that hold a 1 bit, from the left. -/
def rowCells (x y : Nat) (row : Byte) : List PixelPos :=
  ([0, 1, 2, 3, 4, 5, 6, 7].filter (spriteBit row)).map fun b => (Fin.ofNat 32 y, Fin.ofNat 64 (x + b))

/-- The cells of a sprite that hold a 1 bit, row by row. -/
def spriteCells (x : Nat) : Nat → List Byte → List PixelPos
  | _, [] => []
  | y, row :: rows => rowCells x y row ++ spriteCells x (y + 1) rows

/-- The blit of one 1 bit. -/
def flipCell (acc : Framebuffer × Bool) (p : PixelPos) : Framebuffer × Bool := blitPixel acc p.1 p.2 true

theorem blitPixel_eq_ite (acc : Framebuffer × Bool) (r : Fin 32) (c : Fin 64) (bit : Bool) :
    blitPixel acc r c bit = if bit then flipCell acc (r, c) else acc := by
  cases bit <;> rfl

theorem blitRow_eq_foldl (x y : Nat) (row : Byte) (acc : Framebuffer × Bool) :
    blitRow x y row acc = (rowCells x y row).foldl flipCell acc := by
  simp only [blitRow, rowCells, blitPixel_eq_ite, List.foldl_map, List.foldl_filter]

theorem blitRows_eq_foldl (x y : Nat) (rows : List Byte) (acc : Framebuffer × Bool) :
    blitRows x y rows acc = (spriteCells x y rows).foldl flipCell acc := by
  induction rows generalizing y acc with
  | nil => rfl
  | cons row rows ih => rw [blitRows, ih, blitRow_eq_foldl, spriteCells, List.foldl_append]

/-! ### Flips of distinct cells -/

theorem pixel_flipCell (acc : Framebuffer × Bool) (p : PixelPos) (r : Fin 32) (c : Fin 64) :
    Framebuffer.pixel (flipCell acc p).1 r c = (Framebuffer.pixel acc.1 r c).xor (decide ((r, c) = p)) := by
  rw [flipCell, pixel_blitPixel, Bool.true_and]
  congr 2
  exact propext Prod.mk_inj.symm

theorem collision_flipCell (acc : Framebuffer × Bool) (p : PixelPos) :
    (flipCell acc p).2 = (acc.2 || Framebuffer.pixel acc.1 p.1 p.2) := by
  rw [flipCell, collision_blitPixel, Bool.true_and]

/-- Distinct cells are each flipped once. -/
theorem pixel_foldl_flipCell {cells : List PixelPos} (hcells : cells.Nodup) (acc : Framebuffer × Bool) (r : Fin 32)
    (c : Fin 64) : Framebuffer.pixel (cells.foldl flipCell acc).1 r c =
      (Framebuffer.pixel acc.1 r c).xor (decide ((r, c) ∈ cells)) := by
  induction cells generalizing acc with
  | nil => simp
  | cons p cells ih =>
    obtain ⟨hp, hcells⟩ := List.nodup_cons.1 hcells
    rw [List.foldl_cons, ih hcells, pixel_flipCell]
    by_cases h : (r, c) = p
    · subst h
      simp [hp]
    · simp [h]

/-- Distinct cells collide when one of them was 1 at the start. -/
theorem collision_foldl_flipCell {cells : List PixelPos} (hcells : cells.Nodup) (acc : Framebuffer × Bool) :
    (cells.foldl flipCell acc).2 = true ↔ acc.2 = true ∨ ∃ p ∈ cells, Framebuffer.pixel acc.1 p.1 p.2 = true := by
  induction cells generalizing acc with
  | nil => simp
  | cons p cells ih =>
    obtain ⟨hp, hcells⟩ := List.nodup_cons.1 hcells
    have hsame (q : PixelPos) (hq : q ∈ cells) :
        Framebuffer.pixel (flipCell acc p).1 q.1 q.2 = Framebuffer.pixel acc.1 q.1 q.2 := by
      have hne : (q.1, q.2) ≠ p := fun h => hp (h ▸ hq)
      rw [pixel_flipCell, decide_eq_false hne, Bool.xor_false]
    rw [List.foldl_cons, ih hcells, collision_flipCell, Bool.or_eq_true, List.exists_mem_cons_iff, or_assoc]
    exact or_congr_right (or_congr_right (exists_congr fun q => and_congr_right fun hq => by rw [hsame q hq]))

/-! ### The cells of a sprite -/

theorem mem_rowCells {x y : Nat} {row : Byte} {r : Fin 32} {c : Fin 64} : (r, c) ∈ rowCells x y row ↔
    ∃ b, b < 8 ∧ y % 32 = r.val ∧ (x + b) % 64 = c.val ∧ spriteBit row b = true := by
  have h8 (b : Nat) : b ∈ [0, 1, 2, 3, 4, 5, 6, 7] ↔ b < 8 := List.mem_range (n := 8)
  simp only [rowCells, List.mem_map, List.mem_filter, h8, Prod.mk.injEq, Fin.ext_iff, Fin.val_ofNat]
  exact exists_congr fun b => by tauto

theorem mem_spriteCells {x y : Nat} {rows : List Byte} {r : Fin 32} {c : Fin 64} : (r, c) ∈ spriteCells x y rows ↔
    ∃ k b, b < 8 ∧ ∃ h : k < rows.length,
      (y + k) % 32 = r.val ∧ (x + b) % 64 = c.val ∧ spriteBit rows[k] b = true := by
  induction rows generalizing y with
  | nil => simp [spriteCells]
  | cons row rows ih =>
    rw [spriteCells, List.mem_append, mem_rowCells, ih]
    constructor
    · rintro (⟨b, hb, hr, hc, hbit⟩ | ⟨k, b, hb, hk, hr, hc, hbit⟩)
      · exact ⟨0, b, hb, Nat.succ_pos _, hr, hc, hbit⟩
      · exact ⟨k + 1, b, hb, Nat.succ_lt_succ hk, by rw [← hr]; congr 1; omega, hc, hbit⟩
    · rintro ⟨k, b, hb, hk, hr, hc, hbit⟩
      cases k with
      | zero => exact .inl ⟨b, hb, hr, hc, hbit⟩
      | succ k => exact .inr ⟨k, b, hb, Nat.lt_of_succ_lt_succ hk, by rw [← hr]; congr 1; omega, hc, hbit⟩

/-- A bit of a sprite row as a number. -/
theorem spriteBit_iff (row : Byte) (b : Nat) : spriteBit row b = true ↔ (row.toNat >>> (7 - b)) % 2 = 1 := by
  rw [spriteBit, ← BitVec.testBit_toNat, Nat.testBit_eq_decide_div_mod_eq, decide_eq_true_iff,
    Nat.shiftRight_eq_div_pow]

/-- The cells of a sprite are the pixels it covers. -/
theorem mem_spriteCells_iff {x y : Byte} {bytes : List Byte} {r : Fin 32} {c : Fin 64} :
    (r, c) ∈ spriteCells x.toNat y.toNat bytes ↔ SpriteCovers bytes x y r c := by
  simp only [mem_spriteCells, SpriteCovers, spriteBit_iff]

theorem nodup_rowCells (x y : Nat) (row : Byte) : (rowCells x y row).Nodup := by
  refine List.Nodup.map_on ?_ (List.Nodup.filter _ (by decide))
  intro b hb b' hb' h
  have hlt : b < 8 := List.mem_range.1 (List.mem_of_mem_filter hb : b ∈ List.range 8)
  have hlt' : b' < 8 := List.mem_range.1 (List.mem_of_mem_filter hb' : b' ∈ List.range 8)
  have hcol : (x + b) % 64 = (x + b') % 64 := congrArg (fun p : PixelPos => p.2.val) h
  omega

/-- A sprite of at most 32 rows covers no cell twice. -/
theorem nodup_spriteCells {x y : Nat} {rows : List Byte} (h : rows.length ≤ 32) : (spriteCells x y rows).Nodup := by
  induction rows generalizing y with
  | nil => exact List.nodup_nil
  | cons row rows ih =>
    rw [List.length_cons] at h
    refine List.nodup_append.2 ⟨nodup_rowCells x y row, ih (by omega), ?_⟩
    rintro ⟨r, c⟩ hfirst _ hrest rfl
    obtain ⟨-, -, hr, -⟩ := mem_rowCells.1 hfirst
    obtain ⟨k, -, -, hk, hr', -⟩ := mem_spriteCells.1 hrest
    omega

/-! ### The blit -/

theorem displaySprite_eq_foldl (x y : Byte) (bytes : List Byte) (f : Framebuffer) :
    displaySprite x y bytes f = (spriteCells x.toNat y.toNat bytes).foldl flipCell (f, false) :=
  blitRows_eq_foldl _ _ _ _

theorem xor_decide_eq_true_iff (a : Bool) (p : Prop) [Decidable p] :
    a.xor (decide p) = true ↔ ¬(a = true ↔ p) := by
  by_cases hp : p
  · cases a <;> simp [hp]
  · cases a <;> simp [hp]

/-- Settles O43: the blit flips the distinct cells of the sprite, each once. -/
theorem blitIsWrappedXor : Obligations.BlitIsWrappedXor := by
  intro x y bytes f hlen
  have hcells : (spriteCells x.toNat y.toNat bytes).Nodup := nodup_spriteCells (by omega)
  rw [displaySprite_eq_foldl]
  refine ⟨fun r c => ?pixels, ?collision⟩
  case pixels => rw [pixel_foldl_flipCell hcells, xor_decide_eq_true_iff, mem_spriteCells_iff]
  case collision =>
    rw [collision_foldl_flipCell hcells]
    simp only [Bool.false_eq_true, false_or, Prod.exists, mem_spriteCells_iff]

/-! ### DRW -/

theorem decode_patXYN_D (x y : RegIx) (n : Nibble) : decode (patXYN 0xD x y n) = .drw x y n :=
  (congrArg decode (patXYN_eq 0xD x y n)).trans (Laws.RoundTrip.drw x y n rfl)

theorem flagByte_eq_one_iff (c : Bool) : flagByte c = 1 ↔ c = true := by
  cases c <;> decide

theorem flagByte_eq_one_or_zero (c : Bool) : flagByte c = 1 ∨ flagByte c = 0 := by
  cases c <;> decide

/-- The rows of the sprite at `I`. -/
def State.spriteRows (s : State) (n : Nibble) : List Byte := (List.range n.toNat).map fun k => s.ram.read (s.base + k)

theorem State.length_spriteRows (s : State) (n : Nibble) : (s.spriteRows n).length ≤ 15 := by
  rw [State.spriteRows, List.length_map, List.length_range]
  omega

/-- A DRW whose sprite is in range, or has no row, has its effect (R212; decision D19). -/
theorem exec_drw_ok {x y : RegIx} {n : Nibble} {s : State} (h : n.toNat = 0 ∨ s.base + n.toNat - 1 ≤ 0xFFF) :
    exec (.drw x y n) s = .next (effect (.drw x y n) s) := by
  have hr : raises (.drw x y n) s = none := Option.map_eq_none_iff.2 (firstBadAddr_none.2 h)
  exact exec_of_effect hr rfl fun hi => nomatch hi

theorem effect_drw_blit (x y : RegIx) (n : Nibble) (s : State) :
    let blit := displaySprite (s.getV x) (s.getV y) (s.spriteRows n) s.fb
    effect (.drw x y n) s = ((s.setFb blit.1).setFlag (flagByte blit.2)).advance 2 := by
  rw [State.spriteRows, ← Memory.readList_eq_map]
  rfl

/-- What DRW leaves, in terms of the pixels its sprite covers (R211 to R213). -/
theorem drw_effect (x y : RegIx) (n : Nibble) (s : State) :
    let t := effect (.drw x y n) s
    let covers := SpriteCovers (s.spriteRows n) (s.getV x) (s.getV y)
    (∀ r c, t.fb.pixel r c = true ↔ ¬(s.fb.pixel r c = true ↔ covers r c)) ∧
      (t.getV 15 = 1 ∨ t.getV 15 = 0) ∧ (t.getV 15 = 1 ↔ ∃ r c, covers r c ∧ s.fb.pixel r c = true) ∧
      RegsKept [15] s t ∧ t.pc = s.pc + 2 ∧ Kept [.v, .fb, .pc] s t := by
  obtain ⟨hpixel, hcollision⟩ := blitIsWrappedXor (s.getV x) (s.getV y) (s.spriteRows n) s.fb (s.length_spriteRows n)
  simp only [effect_drw_blit]
  refine ⟨hpixel, ?flag, ?flagOne, fun j hj => ?others, rfl, Kept.of_overwrite rfl⟩
  case flag =>
    rw [State.getV_advance, State.setFlag, vf, State.getV_setV_same]
    exact flagByte_eq_one_or_zero _
  case flagOne =>
    rw [State.getV_advance, State.setFlag, vf, State.getV_setV_same, flagByte_eq_one_iff, hcollision]
  case others =>
    have hne : j ≠ vf := List.ne_of_not_mem_cons hj
    rw [State.getV_advance, State.setFlag, State.getV_setV_ne _ _ hne, State.getV_setFb]

/-- Settles O44: DRW ends with the blit of the rows at `I`, read before VF is written, or with the range error. -/
theorem drwDrawsSpriteFromMemory : Obligations.DrwDrawsSpriteFromMemory := by
  intro x y n s
  refine ⟨decode_patXYN_D x y n, fun h => ?ok, fun hn h => exec_access_bad (i := .drw x y n) hn h⟩
  case ok => exact ⟨_, s.spriteRows n, exec_drw_ok h, rfl, drw_effect x y n s⟩

/-- Settles O45: with x and y other than F the second DRW covers the same pixels, so each pixel is flipped twice or never,
and it collides on the pixels the first one turned on. -/
theorem drawingTwiceRestoresFramebuffer : Obligations.DrawingTwiceRestoresFramebuffer := by
  intro x y n s hx hy h
  obtain ⟨hfb, -, -, hregs, -, hkept⟩ := drw_effect x y n s
  generalize ht : effect (.drw x y n) s = t at *
  obtain ⟨hfb', -, hflag', -⟩ := drw_effect x y n t
  have hbase : t.base = s.base := congrArg BitVec.toNat (hkept.i (by decide))
  have hrows : t.spriteRows n = s.spriteRows n := by
    simp only [State.spriteRows, hbase, hkept.ram (by decide)]
  have hvx : t.getV x = s.getV x := hregs x (by simpa using hx)
  have hvy : t.getV y = s.getV y := hregs y (by simpa using hy)
  rw [hrows, hvx, hvy] at hfb' hflag'
  refine ⟨t, effect (.drw x y n) t, ht ▸ exec_drw_ok h, exec_drw_ok (hbase ▸ h), fun r c => ?pixels, ?collision⟩
  case pixels =>
    rw [Bool.eq_iff_iff, hfb', hfb]
    by_cases hc : SpriteCovers (s.spriteRows n) (s.getV x) (s.getV y) r c
    · simp [hc]
    · simp [hc]
  case collision =>
    rw [hflag']
    refine exists_congr fun r => exists_congr fun c => ?_
    rw [← Bool.not_eq_true, hfb]
    by_cases hc : SpriteCovers (s.spriteRows n) (s.getV x) (s.getV y) r c
    · simp [hc]
    · simp [hc]

end Sys2Proof.Machine
end

section
/-! Control flow (spec/40_flow.md): return, the jumps, call, and the skips that compare two registers. -/

namespace Sys2Proof.Machine

/-! ### The encodings -/

theorem decode_00EE : decode 0x00EE = .ret := Laws.RoundTrip.ret rfl

/-- SYS is every word of family 0 but those of CLS and RET (decision D16). -/
theorem decode_patNNN_0 {nnn : Addr12} (hcls : nnn ≠ 0x0E0) (hret : nnn ≠ 0x0EE) :
    decode (patNNN 0x0 nnn) = .sys nnn :=
  (congrArg decode (patNNN_eq 0x0 nnn)).trans
    (Laws.RoundTrip.sys nnn (Bool.and_eq_true_iff.2 ⟨bne_iff_ne.2 hcls, bne_iff_ne.2 hret⟩))

theorem decode_patNNN_1 (nnn : Addr12) : decode (patNNN 0x1 nnn) = .jmp nnn :=
  (congrArg decode (patNNN_eq 0x1 nnn)).trans (Laws.RoundTrip.jmp nnn rfl)

theorem decode_patNNN_2 (nnn : Addr12) : decode (patNNN 0x2 nnn) = .call nnn :=
  (congrArg decode (patNNN_eq 0x2 nnn)).trans (Laws.RoundTrip.call nnn rfl)

theorem decode_patNNN_B (nnn : Addr12) : decode (patNNN 0xB nnn) = .jpV0 nnn :=
  (congrArg decode (patNNN_eq 0xB nnn)).trans (Laws.RoundTrip.jpV0 nnn rfl)

theorem decode_patXYN_5 (x y : RegIx) (n : Nibble) : decode (patXYN 0x5 x y n) = .seReg x y n :=
  (congrArg decode (patXYN_eq 0x5 x y n)).trans (Laws.RoundTrip.seReg x y n rfl)

theorem decode_patXYN_9 (x y : RegIx) (n : Nibble) : decode (patXYN 0x9 x y n) = .sneReg x y n :=
  (congrArg decode (patXYN_eq 0x9 x y n)).trans (Laws.RoundTrip.sneReg x y n rfl)

/-! ### Return and call -/

/-- Settles O19: RET is a pop, of the entry below `SP`, or of none. -/
theorem retReturnsPastTheCall : Obligations.RetReturnsPastTheCall := by
  refine ⟨decode_00EE, fun s hlt hpos => ?pop, fun s h0 => exec_of_instrError ⟨rfl, rfl, h0⟩⟩
  case pop =>
    refine ⟨(s.setSp (s.sp - 1)).setPc (s.stackAt ⟨s.sp.toNat - 1, hlt⟩ + 2), ?next, rfl, toNat_pred_of_pos hpos,
      Kept.of_overwrite rfl⟩
    case next => rw [exec_ret, execRet, pop_some hpos hlt]

/-- Settles O22: CALL is a push of `PC`, or overflows. -/
theorem callPushesOwnAddressAndJumps : Obligations.CallPushesOwnAddressAndJumps := by
  intro nnn
  refine ⟨decode_patNNN_2 nnn, fun s hlt => ?push, fun s h16 => exec_of_instrError ⟨rfl, rfl, h16⟩⟩
  case push =>
    have hstack (j : Fin 16) := s.stackAt_setStack ⟨s.sp.toNat, hlt⟩ j s.pc (s.sp + 1)
    refine ⟨(s.setStack ⟨s.sp.toNat, hlt⟩ s.pc (s.sp + 1)).setPc (addrImm nnn), ?next, toNat_addrImm nnn,
      toNat_succ_of_lt hlt, ?pushed, fun j hj => ?others, Kept.of_overwrite rfl⟩
    case next => rw [exec_call, execCall, push_room hlt]
    case pushed => exact (hstack _).trans (if_pos rfl)
    case others => exact (hstack j).trans (if_neg fun h => hj (congrArg Fin.val h))

/-! ### Jumps -/

/-- Settles O20: SYS writes the zero-extended address to `PC`. -/
theorem sysJumps : Obligations.SysJumps := fun nnn s =>
  ⟨decode_patNNN_0, s.setPc (addrImm nnn), exec_sys nnn s, toNat_addrImm nnn, s.kept_setPc _⟩

/-- Settles O21: JMP writes the zero-extended address to `PC`; the target 0xFFF has no second byte. -/
theorem jmpJumps : Obligations.JmpJumps := by
  intro nnn s
  refine ⟨decode_patNNN_1 nnn, s.setPc (addrImm nnn), exec_jmp nnn s, toNat_addrImm nnn, s.kept_setPc _, ?self, ?last⟩
  case self =>
    intro h
    have hpc : addrImm nnn = s.pc := BitVec.eq_of_toNat_eq ((toNat_addrImm nnn).trans h)
    rw [hpc]
    rfl
  case last =>
    rintro rfl hrun
    exact step_of_fetch_bad (s := s.setPc 0xFFF) hrun (by rw [State.setPc_pc]; decide)

/-- Settles O23: the sum of a 12-bit address and a byte is exact in 16 bits. -/
theorem jpV0AddsV0 : Obligations.JpV0AddsV0 := by
  intro nnn s
  have hsum : (addrImm nnn + byteImm (s.getV 0)).toNat = nnn.toNat + (s.getV 0).toNat := by
    rw [BitVec.toNat_add, toNat_addrImm, toNat_byteImm]
    omega
  exact ⟨decode_patNNN_B nnn, s.setPc (addrImm nnn + byteImm (s.getV 0)), exec_jpV0 nnn s, hsum, s.kept_setPc _⟩

/-! ### The register skips -/

/-- Settles O26: SE and SNE end in the skip whose condition is `V[x] == V[y]`, or `V[x] != V[y]`. -/
theorem registerSkipsCompare : Obligations.RegisterSkipsCompare := by
  intro x y n s
  refine ⟨decode_patXYN_5 x y n, decode_patXYN_9 x y n,
    ⟨s.skipIf (s.getV x == s.getV y), exec_seReg x y n s, ?seEqual, ?seDifferent, s.kept_skipIf _⟩,
    ⟨s.skipIf (s.getV x != s.getV y), exec_sneReg x y n s, ?sneDifferent, ?sneEqual, s.kept_skipIf _⟩⟩
  case seEqual => exact fun h => s.skipIf_pc_of_true (beq_iff_eq.2 h)
  case seDifferent => exact fun h => s.skipIf_pc_of_false (beq_eq_false_iff_ne.2 h)
  case sneDifferent => exact fun h => s.skipIf_pc_of_true (bne_iff_ne.2 h)
  case sneEqual => exact fun h => s.skipIf_pc_of_false (bne_eq_false_iff_eq.2 h)

end Sys2Proof.Machine
end

section
/-! The ALU, random and the sum into `I` (spec/41_alu.md, spec/42_index_memory.md): the ending with a result and a flag, the
flags and results as numbers, and the instructions that end so. -/

namespace Sys2Proof.Machine

/-! ### The ending with a result and a flag -/

/-- The ending of a flag writer: the flag is written after the result (R160; decision D15). -/
theorem State.setResultFlag_advance_effect (s : State) (x : RegIx) (r f : Byte) :
    let t := (s.setResultFlag x r f).advance 2
    (x ≠ 15 → t.getV x = r) ∧ t.getV 15 = f ∧ RegsKept [x, 15] s t ∧ t.pc = s.pc + 2 ∧ Kept [.v, .pc] s t := by
  have hread (j : RegIx) := s.getV_setResultFlag x j r f
  refine ⟨fun hx => ?result, (hread 15).trans (if_pos rfl), fun j hj => ?others, rfl, Kept.of_overwrite rfl⟩
  case result => exact (hread x).trans ((if_neg hx).trans (if_pos rfl))
  case others =>
    have hx : j ≠ x := fun h => hj (h ▸ List.mem_cons_self)
    have hvf : j ≠ vf := fun h => hj (h ▸ List.mem_cons_of_mem _ List.mem_cons_self)
    exact (hread j).trans ((if_neg hvf).trans (if_neg hx))

/-! ### Results and flags as numbers -/

theorem toNat_addModResult (a b : Byte) : (addModResult a b).toNat = (a.toNat + b.toNat) % 255 := by
  rw [addModResult, Config.addModulus, BitVec.toNat_ofNat]
  omega

theorem toNat_carryFlag (a b : Byte) : (carryFlag a b).toNat = if 255 < a.toNat + b.toNat then 1 else 0 := by
  simp only [carryFlag, toNat_flagByte, decide_eq_true_eq]

theorem toNat_noBorrowFlag (a b : Byte) : (noBorrowFlag a b).toNat = if b.toNat < a.toNat then 1 else 0 := by
  simp only [noBorrowFlag, toNat_flagByte, decide_eq_true_eq]

theorem toNat_sub_byte (a b : Byte) : (a - b).toNat = (256 + a.toNat - b.toNat) % 256 := by
  have hb := b.isLt
  rw [BitVec.toNat_sub]
  congr 1
  omega

theorem toNat_shiftRight_one (a : Byte) : (a >>> 1).toNat = a.toNat / 2 := by
  rw [BitVec.toNat_ushiftRight, Nat.shiftRight_one]

theorem toNat_shrFlag (a : Byte) : (shrFlag a).toNat = a.toNat % 2 :=
  (BitVec.toNat_and a 1).trans (Nat.and_one_is_mod _)

theorem toNat_shiftLeft_one (a : Byte) : (a <<< 1).toNat = a.toNat * 2 % 256 := by
  rw [BitVec.toNat_shiftLeft, Nat.shiftLeft_eq]

theorem toNat_shlFlag (a : Byte) : (shlFlag a).toNat = a.toNat / 128 := by
  rw [shlFlag, BitVec.toNat_ushiftRight, Nat.shiftRight_eq_div_pow]

/-! ### The encodings -/

theorem decode_patXYN_8_1 (x y : RegIx) : decode (patXYN 0x8 x y 0x1) = .orReg x y :=
  (congrArg decode (patXYN_eq 0x8 x y 0x1)).trans (Laws.RoundTrip.orReg x y rfl)

theorem decode_patXYN_8_2 (x y : RegIx) : decode (patXYN 0x8 x y 0x2) = .andReg x y :=
  (congrArg decode (patXYN_eq 0x8 x y 0x2)).trans (Laws.RoundTrip.andReg x y rfl)

theorem decode_patXYN_8_3 (x y : RegIx) : decode (patXYN 0x8 x y 0x3) = .xorReg x y :=
  (congrArg decode (patXYN_eq 0x8 x y 0x3)).trans (Laws.RoundTrip.xorReg x y rfl)

theorem decode_patXYN_8_4 (x y : RegIx) : decode (patXYN 0x8 x y 0x4) = .addReg x y :=
  (congrArg decode (patXYN_eq 0x8 x y 0x4)).trans (Laws.RoundTrip.addReg x y rfl)

theorem decode_patXYN_8_5 (x y : RegIx) : decode (patXYN 0x8 x y 0x5) = .subReg x y :=
  (congrArg decode (patXYN_eq 0x8 x y 0x5)).trans (Laws.RoundTrip.subReg x y rfl)

theorem decode_patXYN_8_6 (x y : RegIx) : decode (patXYN 0x8 x y 0x6) = .shr x y :=
  (congrArg decode (patXYN_eq 0x8 x y 0x6)).trans (Laws.RoundTrip.shr x y rfl)

theorem decode_patXYN_8_7 (x y : RegIx) : decode (patXYN 0x8 x y 0x7) = .subnReg x y :=
  (congrArg decode (patXYN_eq 0x8 x y 0x7)).trans (Laws.RoundTrip.subnReg x y rfl)

theorem decode_patXYN_8_E (x y : RegIx) : decode (patXYN 0x8 x y 0xE) = .shl x y :=
  (congrArg decode (patXYN_eq 0x8 x y 0xE)).trans (Laws.RoundTrip.shl x y rfl)

theorem decode_patXKK_C (x : RegIx) (kk : Byte) : decode (patXKK 0xC x kk) = .rnd x kk :=
  (congrArg decode (patXKK_eq 0xC x kk)).trans (Laws.RoundTrip.rnd x kk rfl)

theorem decode_patXKK_F_1E (x : RegIx) : decode (patXKK 0xF x 0x1E) = .addI x :=
  (congrArg decode (patXKK_eq 0xF x 0x1E)).trans (Laws.RoundTrip.addI x rfl)

/-! ### The bitwise operations -/

/-- Settles O30: the three end with `V[x]` as their one result, the bitwise operation of the old registers. -/
theorem bitwiseOperationsLeaveVf : Obligations.BitwiseOperationsLeaveVf := by
  intro x y s
  refine ⟨decode_patXYN_8_1 x y, decode_patXYN_8_2 x y, decode_patXYN_8_3 x y, ?or, ?and, ?xor⟩
  case or =>
    obtain ⟨hv, heffect⟩ := s.setV_advance_effect x (s.getV x ||| s.getV y)
    exact ⟨_, exec_orReg x y s, fun b _ => by rw [hv, BitVec.getLsbD_or], heffect⟩
  case and =>
    obtain ⟨hv, heffect⟩ := s.setV_advance_effect x (s.getV x &&& s.getV y)
    exact ⟨_, exec_andReg x y s, fun b _ => by rw [hv, BitVec.getLsbD_and], heffect⟩
  case xor =>
    obtain ⟨hv, heffect⟩ := s.setV_advance_effect x (s.getV x ^^^ s.getV y)
    exact ⟨_, exec_xorReg x y s, fun b _ => by rw [hv, BitVec.getLsbD_xor], heffect⟩

/-! ### The flag writers -/

/-- Settles O31: ADD ends with the sum modulo 255 and its carry. -/
theorem addRegStoresSumModulo255 : Obligations.AddRegStoresSumModulo255 := by
  intro x y s
  obtain ⟨hresult, hflag, heffect⟩ :=
    s.setResultFlag_advance_effect x (addModResult (s.getV x) (s.getV y)) (carryFlag (s.getV x) (s.getV y))
  refine ⟨decode_patXYN_8_4 x y, _, exec_addReg x y s, fun hx => ?sum, ?carry, heffect⟩
  case sum => rw [hresult hx, toNat_addModResult]
  case carry => rw [hflag, toNat_carryFlag]

/-- Settles O32: SUB ends with the difference and its strict flag. -/
theorem subSubtractsWithStrictFlag : Obligations.SubSubtractsWithStrictFlag := by
  intro x y s
  obtain ⟨hresult, hflag, heffect⟩ :=
    s.setResultFlag_advance_effect x (s.getV x - s.getV y) (noBorrowFlag (s.getV x) (s.getV y))
  refine ⟨decode_patXYN_8_5 x y, _, exec_subReg x y s, fun hx => ?difference, ?noBorrow, heffect⟩
  case difference => rw [hresult hx, toNat_sub_byte]
  case noBorrow => rw [hflag, toNat_noBorrowFlag]

/-- Settles O33: SUBN is the ending of SUB with its operands exchanged. -/
theorem subnSubtractsReversed : Obligations.SubnSubtractsReversed := by
  intro x y s
  obtain ⟨hresult, hflag, heffect⟩ :=
    s.setResultFlag_advance_effect x (s.getV y - s.getV x) (noBorrowFlag (s.getV y) (s.getV x))
  refine ⟨decode_patXYN_8_7 x y, _, exec_subnReg x y s, fun hx => ?difference, ?noBorrow, heffect⟩
  case difference => rw [hresult hx, toNat_sub_byte]
  case noBorrow => rw [hflag, toNat_noBorrowFlag]

/-- Settles O34: the shifts end with the shifted `V[x]` and the bit shifted out. -/
theorem shiftsLeaveBitInVf : Obligations.ShiftsLeaveBitInVf := by
  intro x y s
  refine ⟨decode_patXYN_8_6 x y, decode_patXYN_8_E x y, ?right, ?left⟩
  case right =>
    obtain ⟨hresult, hflag, heffect⟩ := s.setResultFlag_advance_effect x (s.getV x >>> 1) (shrFlag (s.getV x))
    refine ⟨_, exec_shr x y s, fun hx => ?_, ?_, heffect⟩
    · rw [hresult hx, toNat_shiftRight_one]
    · rw [hflag, toNat_shrFlag]
  case left =>
    obtain ⟨hresult, hflag, heffect⟩ := s.setResultFlag_advance_effect x (s.getV x <<< 1) (shlFlag (s.getV x))
    refine ⟨_, exec_shl x y s, fun hx => ?_, ?_, heffect⟩
    · rw [hresult hx, toNat_shiftLeft_one]
    · rw [hflag, toNat_shlFlag]

/-! ### Random, and the sum into `I` -/

/-- What RND leaves: the masked random byte in `V[x]`, one more draw counted, and nothing else but `PC` written. -/
theorem rnd_effect (x : RegIx) (kk : Byte) (s : State) :
    let t := effect (.rnd x kk) s
    (∀ k < 8, (t.getV x).getLsbD k = (s.randByte.getLsbD k && kk.getLsbD k)) ∧ RegsKept [x] s t ∧ t.pc = s.pc + 2 ∧
      t.randDraws = s.randDraws + 1 ∧ Kept [.v, .pc, .randDraws] s t := by
  have hread (j : RegIx) : (effect (.rnd x kk) s).getV j = if j = x then s.randByte &&& kk else s.getV j :=
    s.getV_setV x j _
  refine ⟨fun k _ => ?masked, fun j hj => ?others, rfl, rfl, Kept.of_overwrite rfl⟩
  case masked => rw [hread, if_pos rfl, BitVec.getLsbD_and]
  case others => rw [hread, if_neg (List.ne_of_not_mem_cons hj)]

/-- Settles O35: the random byte of a step is the offered one, else the free value. -/
theorem rndMasksRandomByte : Obligations.RndMasksRandomByte := fun x kk s =>
  ⟨decode_patXKK_C x kk, effect (.rnd x kk) s, exec_rnd x kk s, rnd_effect x kk s⟩

/-- Settles O37: ADD I is the ending with the 16-bit sum as the result. -/
theorem addIIsNotMaskedTo12Bits : Obligations.AddIIsNotMaskedTo12Bits := by
  intro x s
  obtain ⟨hi, hpc, hkept⟩ := s.setI_advance_effect (s.i + byteImm (s.getV x))
  refine ⟨decode_patXKK_F_1E x, _, exec_addI x s, ?sum, hpc, hkept⟩
  case sum => rw [hi, BitVec.toNat_add, toNat_byteImm]

end Sys2Proof.Machine
end

section
/-! Keys, timers and UNKNOWN (spec/44_keys_timers.md, spec/60_exceptions.md). -/

namespace Sys2Proof.Machine

/-! ### The encodings -/

theorem decode_patXKK_E_9E (x : RegIx) : decode (patXKK 0xE x 0x9E) = .skp x :=
  (congrArg decode (patXKK_eq 0xE x 0x9E)).trans (Laws.RoundTrip.skp x rfl)

theorem decode_patXKK_E_A1 (x : RegIx) : decode (patXKK 0xE x 0xA1) = .sknp x :=
  (congrArg decode (patXKK_eq 0xE x 0xA1)).trans (Laws.RoundTrip.sknp x rfl)

theorem decode_patXKK_F_07 (x : RegIx) : decode (patXKK 0xF x 0x07) = .ldVxDT x :=
  (congrArg decode (patXKK_eq 0xF x 0x07)).trans (Laws.RoundTrip.ldVxDT x rfl)

theorem decode_patXKK_F_0A (x : RegIx) : decode (patXKK 0xF x 0x0A) = .ldVxK x :=
  (congrArg decode (patXKK_eq 0xF x 0x0A)).trans (Laws.RoundTrip.ldVxK x rfl)

theorem decode_patXKK_F_18 (x : RegIx) : decode (patXKK 0xF x 0x18) = .ldSTVx x :=
  (congrArg decode (patXKK_eq 0xF x 0x18)).trans (Laws.RoundTrip.ldSTVx x rfl)

/-! ### Keys -/

/-- Settles O46: the key skips end in the skip whose condition is the key's state, or its negation, or with the error of
the key check. -/
theorem keySkipsReadKeypad : Obligations.KeySkipsReadKeypad := by
  intro x s
  refine ⟨decode_patXKK_E_9E x, decode_patXKK_E_A1 x, fun hkey => ⟨?skp, ?sknp⟩, fun hkey => ⟨?skpBad, ?sknpBad⟩⟩
  case skp =>
    refine ⟨s.skipIf (s.keyAt ⟨(s.getV x).toNat, hkey⟩), ?_, s.skipIf_pc_of_true, s.skipIf_pc_of_false,
      s.kept_skipIf _⟩
    rw [exec_skp, execSkp, checkKey_ok hkey]
  case sknp =>
    refine ⟨s.skipIf (!s.keyAt ⟨(s.getV x).toNat, hkey⟩), ?_, fun h => s.skipIf_pc_of_true (by rw [h, Bool.not_false]),
      fun h => s.skipIf_pc_of_false (by rw [h, Bool.not_true]), s.kept_skipIf _⟩
    rw [exec_sknp, execSknp, checkKey_ok hkey]
  case skpBad => exact exec_of_instrError ⟨rfl, hkey, x, .inl rfl, rfl⟩
  case sknpBad => exact exec_of_instrError ⟨rfl, hkey, x, .inr rfl, rfl⟩

/-- The scan finds the lowest pressed key (R233). -/
theorem State.pressedKey_eq_some {s : State} {k : Fin 16} (hk : s.keyAt k = true)
    (hlow : ∀ j, j < k → s.keyAt j = false) : s.pressedKey = some k := by
  cases hp : s.pressedKey with
  | none => exact absurd (State.pressedKey_none.1 hp k) (by rw [hk]; decide)
  | some k' =>
    obtain ⟨hk', hlow'⟩ := State.pressedKey_some hp
    rcases lt_trichotomy k k' with h | h | h
    · exact absurd (hlow' k h) (by rw [hk]; decide)
    · rw [h]
    · exact absurd (hlow k' h) (by rw [hk']; decide)

/-- Settles O47: LD Vx, K goes by what the scan of the keypad finds. -/
theorem ldVxKTakesLowestKeyOrStalls : Obligations.LdVxKTakesLowestKeyOrStalls := by
  intro x s
  refine ⟨decode_patXKK_F_0A x, fun k hk hlow => ?pressed, fun hnone => ?stall⟩
  case pressed =>
    obtain ⟨hv, heffect⟩ := s.setV_advance_effect x (BitVec.ofNat 8 k.val)
    refine ⟨(s.setV x (BitVec.ofNat 8 k.val)).advance 2, ?next, ?number, heffect⟩
    case next => rw [exec_ldVxK, execLdVxK, State.pressedKey_eq_some hk hlow]
    case number =>
      rw [hv, BitVec.toNat_ofNat]
      exact Nat.mod_eq_of_lt (by omega)
  case stall => rw [exec_ldVxK, execLdVxK, State.pressedKey_none.2 hnone]

/-! ### Timers and UNKNOWN -/

/-- Settles O48: LD Vx, DT is the ending with `DT` as the result. -/
theorem ldVxDTReadsDelayTimer : Obligations.LdVxDTReadsDelayTimer := fun x s =>
  ⟨decode_patXKK_F_07 x, (s.setV x s.dt).advance 2, exec_ldVxDT x s, s.setV_advance_effect x s.dt⟩

theorem soundOn_iff (s : State) : soundOn s = true ↔ s.st.toNat ≠ 0 := by
  rw [soundOn, bne_iff_ne, ne_eq, ← BitVec.toNat_inj]
  rfl

/-- Settles O50: LD ST writes `V[x]` to ST, which `snapshot` copies and `sound_on` compares with 0. -/
theorem ldSTVxSetsSoundTimer : Obligations.LdSTVxSetsSoundTimer := fun x s =>
  ⟨decode_patXKK_F_18 x, (s.setSt (s.getV x)).advance 2, exec_ldSTVx x s, rfl, rfl, Kept.of_overwrite rfl, rfl,
    soundOn_iff _⟩

/-- Settles O51: UNKNOWN is `raise` and nothing else. -/
theorem unknownHaltsWithOpcode : Obligations.UnknownHaltsWithOpcode := fun op s =>
  ⟨s.haltedWith (.unknownOpcode s.pc op), exec_of_instrError ⟨rfl, rfl⟩, rfl, Kept.of_overwrite rfl, rfl⟩

end Sys2Proof.Machine
end

section
/-! The host's transactions (spec/10_state.md section 14, spec/60_exceptions.md section 4, spec/70_reset_and_hazards.md):
reset, load, tick, the step with its random byte, the batch and the frame. -/

namespace Sys2Proof.Machine

/-! ### Reset and load -/

theorem length_font : Config.font.length = 80 := by decide

/-- Settles O52: each register and table reads as the zero it is filled with, and unlisted RAM as the font and zero. -/
theorem resetLeavesListedValues : Obligations.ResetLeavesListedValues := by
  intro s
  refine ⟨fun j => ?v, rfl, rfl, rfl, fun j => ?stack, rfl, rfl, fun k => ?key, Framebuffer.pixel_blank, rfl,
    fun a ha => ?font, fun a ha => ?zero⟩
  case v => exact Vector.getElem_replicate j.isLt
  case stack => exact Vector.getElem_replicate j.isLt
  case key => exact Vector.getElem_replicate k.isLt
  case font =>
    have hlen : a < Config.font.length := length_font ▸ ha
    exact (List.getElem?_eq_getElem hlen).trans (congrArg some (List.getD_eq_getElem _ 0 hlen).symm)
  case zero => exact List.getD_eq_default _ 0 (length_font ▸ ha)

/-- Settles O54: load is a run of stores from `PROG_BASE` up, all of them to bytes that exist. -/
theorem loadCopiesRom : Obligations.LoadCopiesRom := by
  intro rom s
  refine ⟨fun h => ?fits, fun h => if_pos h⟩
  case fits =>
    refine ⟨s.setRam (s.ram.writeList Config.progBase rom), if_neg (not_lt.2 h), fun k hk => ?copied, fun b hb => ?others,
      Kept.of_overwrite rfl, fun hwf => ?wf⟩
    case copied => exact Memory.read_writeList_at rom s.ram 0x200 k hk
    case others => exact Memory.read_writeList_outside rom s.ram hb
    case wf =>
      have hfits : Config.progBase + rom.length ≤ Config.ramSize := Nat.add_le_add_left h 0x200
      exact Memory.wf_writeList hwf hfits

/-! ### Tick -/

/-- The sound timer after a running core's tick: one lower, and 0 when it was 0 (R270). -/
theorem toNat_st_tick_of_running {s : State} (h : s.status = .running) : (tick s).st.toNat = s.st.toNat - 1 := by
  rw [tick_of_running h, State.setSt_st, toNat_countDown]

theorem tick_halted {s : State} {e : CoreError} (h : s.status = .halted e) : tick s = s := by
  simp only [tick, h]

theorem tick_key (s : State) : (tick s).key = s.key := by
  cases h : s.status with
  | running => rw [tick_of_running h, State.setSt_key, State.setDt_key]
  | halted e => rw [tick_halted h]

/-- Settles O53: a running core's tick decrements both timers and writes nothing else. -/
theorem tickCountsTimersDown : Obligations.TickCountsTimersDown := by
  intro s hrun
  refine ⟨toNat_dt_tick_of_running hrun, toNat_st_tick_of_running hrun, ?frame⟩
  case frame =>
    rw [tick_of_running hrun]
    exact Kept.of_overwrite rfl

/-! ### The step with its random byte -/

theorem State.setRandOffer_self {s : State} {r : Option Byte} (h : s.randOffer = r) : s.setRandOffer r = s := by
  subst h
  rfl

theorem stepWith_of_next {r : Option Byte} {s t : State} (h : step (s.setRandOffer r) = .next t) :
    stepWith r s = .next (t.setRandOffer none) := by
  simp only [stepWith, h]

theorem stepWith_of_fault {r : Option Byte} {s : State} {f : Fault} (h : step (s.setRandOffer r) = .fault f) :
    stepWith r s = .fault f := by
  simp only [stepWith, h]

/-- A step with a random byte that answers a next state: the step with the byte on offer, and the offer withdrawn. -/
theorem stepWith_cases {r : Option Byte} {s t : State} (h : stepWith r s = .next t) :
    ∃ u, step (s.setRandOffer r) = .next u ∧ t = u.setRandOffer none := by
  unfold stepWith at h
  split at h
  case h_1 u hu => exact ⟨u, hu, (Host.Outcome.next.inj h).symm⟩
  case h_2 => cases h
  case h_3 => cases h

theorem stepWith_key {r : Option Byte} {s t : State} (h : stepWith r s = .next t) : t.key = s.key := by
  obtain ⟨u, hu, rfl⟩ := stepWith_cases h
  exact (step_key hu).trans (State.setRandOffer_key s r)

/-- With no byte and none on offer, `step(rand)` is the step (R60). -/
theorem stepWith_none {s : State} (h : s.randOffer = none) : stepWith none s = step s := by
  have hs : s.setRandOffer none = s := State.setRandOffer_self h
  rcases step_next_or_fault s with ⟨t, ht⟩ | ⟨-, hf⟩
  · rw [stepWith_of_next (hs.symm ▸ ht), ht, State.setRandOffer_self ((step_randOffer ht).trans h)]
  · rw [stepWith_of_fault (hs.symm ▸ hf), hf]

theorem exec_randDraws {i : Instr} {s t : State} (hi : ∀ x kk, i ≠ .rnd x kk) (h : exec i s = .next t) :
    t.randDraws = s.randDraws := by
  by_contra hne
  obtain ⟨x, kk, hrnd⟩ := rnd_of_effect_randDraws_ne (effect_ne_of_exec State.randDraws (fun _ => rfl) h hne)
  exact hi x kk hrnd

/-- An instruction other than RND does the same with a byte on offer, up to the offer (R60). -/
theorem exec_setRandOffer {i : Instr} {s t : State} (hi : ∀ x kk, i ≠ .rnd x kk) (h : exec i s = .next t)
    (r : Option Byte) : exec i (s.setRandOffer r) = .next (t.setRandOffer r) := by
  have ht : { t with randOffer := r, randDraws := s.randDraws } = t.setRandOffer r := by
    rw [← exec_randDraws hi h]
    rfl
  exact (onlyRndDependsOnRandomInput i s t r s.randDraws hi h).trans (congrArg _ ht)

/-- Settles O58: RND takes the offered byte, any other instruction does the same without it, and the offer is withdrawn. -/
theorem stepOffersItsByteToRnd : Obligations.StepOffersItsByteToRnd := by
  refine ⟨fun x kk r s hrun hop => ?rnd, fun r op s hrun hoffer hop hi => ?other, fun s h => stepWith_none h⟩
  case rnd =>
    have hstep : step (s.setRandOffer (some r)) = .next (effect (.rnd x kk) (s.setRandOffer (some r))) :=
      (step_of_opcodeAt (s := s.setRandOffer (some r)) hrun hop).trans (congrArg (exec · _) (decode_patXKK_C x kk))
    obtain ⟨hv, hregs, hpc, hdraws, -⟩ := rnd_effect x kk (s.setRandOffer (some r))
    exact ⟨_, stepWith_of_next hstep, hv, hregs, hpc, rfl, hdraws, Kept.of_overwrite rfl⟩
  case other =>
    have hstep : step s = exec (decode op) s := step_of_opcodeAt hrun hop
    have hstep' : step (s.setRandOffer (some r)) = exec (decode op) (s.setRandOffer (some r)) :=
      step_of_opcodeAt hrun hop
    by_cases hsp : usesStack (decode op) = true → s.sp.toNat ≤ 16
    · have hnext : exec (decode op) s = .next (outcome (decode op) s) := exec_eq hsp
      have hnone : (outcome (decode op) s).randOffer = none := (exec_randOffer hnext).trans hoffer
      rw [hstep, hnext, stepWith_of_next (hstep'.trans (exec_setRandOffer hi hnext _))]
      exact congrArg _ (State.setRandOffer_self hnone)
    · obtain ⟨hst, hsp⟩ := Classical.not_imp.1 hsp
      have hillegal : 16 < s.sp.toNat := by omega
      rw [hstep, exec_illegal hst hillegal, stepWith_of_fault (hstep'.trans (exec_illegal hst hillegal))]

/-! ### The batch -/

theorem stepBatch_succ_of_running {n : Nat} {rands : List Byte} {s u : State} (h : stepWith rands.head? s = .next u)
    (hrun : u.status = .running) : stepBatch (n + 1) rands s = stepBatch n rands.tail u := by
  simp only [stepBatch, h, if_pos hrun]

theorem stepBatch_succ_of_halted {n : Nat} {rands : List Byte} {s u : State} (h : stepWith rands.head? s = .next u)
    (hhalt : u.status ≠ .running) : stepBatch (n + 1) rands s = .next u := by
  simp only [stepBatch, h, if_neg hhalt]

theorem stepBatch_succ_of_fault {n : Nat} {rands : List Byte} {s : State} {f : Fault}
    (h : stepWith rands.head? s = .fault f) : stepBatch (n + 1) rands s = .fault f := by
  simp only [stepBatch, h]

/-- A batch of at least one step that answers a next state: its first step halts, or the rest of the batch follows. -/
theorem stepBatch_succ_cases {n : Nat} {rands : List Byte} {s t : State} (h : stepBatch (n + 1) rands s = .next t) :
    ∃ u, stepWith rands.head? s = .next u ∧
      ((u.status = .running ∧ stepBatch n rands.tail u = .next t) ∨ (u.status ≠ .running ∧ t = u)) := by
  cases hu : stepWith rands.head? s with
  | next u =>
    by_cases hrun : u.status = .running
    · exact ⟨u, rfl, .inl ⟨hrun, (stepBatch_succ_of_running hu hrun).symm.trans h⟩⟩
    · rw [stepBatch_succ_of_halted hu hrun, Host.Outcome.next.injEq] at h
      exact ⟨u, rfl, .inr ⟨hrun, h.symm⟩⟩
  | fault f => simp [stepBatch, hu] at h
  | refused r => simp [stepBatch, hu] at h

/-- A batch of at least one step that faults: its first step does, or the rest of the batch. -/
theorem stepBatch_succ_fault_cases {n : Nat} {rands : List Byte} {s : State} {f : Fault}
    (h : stepBatch (n + 1) rands s = .fault f) : stepWith rands.head? s = .fault f ∨
      ∃ u, stepWith rands.head? s = .next u ∧ u.status = .running ∧ stepBatch n rands.tail u = .fault f := by
  cases hu : stepWith rands.head? s with
  | next u =>
    by_cases hrun : u.status = .running
    · exact .inr ⟨u, rfl, hrun, (stepBatch_succ_of_running hu hrun).symm.trans h⟩
    · simp [stepBatch_succ_of_halted hu hrun] at h
  | fault f' =>
    rw [stepBatch_succ_of_fault hu] at h
    exact .inl h
  | refused r => simp [stepBatch, hu] at h

theorem stepBatch_one (rands : List Byte) (s : State) : stepBatch 1 rands s = stepWith rands.head? s := by
  cases hu : stepWith rands.head? s with
  | next u =>
    by_cases hrun : u.status = .running
    · exact stepBatch_succ_of_running hu hrun
    · exact stepBatch_succ_of_halted hu hrun
  | fault f => exact stepBatch_succ_of_fault hu
  | refused r => simp only [stepBatch, hu]

/-- A batch whose first `n` steps end in a running core goes on from there with the bytes left. -/
theorem stepBatch_add_of_running {n : Nat} (m : Nat) {rands : List Byte} {s t : State}
    (h : stepBatch n rands s = .next t) (ht : t.status = .running) :
    stepBatch (n + m) rands s = stepBatch m (rands.drop n) t := by
  induction n generalizing rands s with
  | zero =>
    cases h
    rw [Nat.zero_add, List.drop_zero]
  | succ n ih =>
    obtain ⟨u, hu, ⟨hrun, hrest⟩ | ⟨hhalt, rfl⟩⟩ := stepBatch_succ_cases h
    · rw [Nat.succ_add, stepBatch_succ_of_running hu hrun, ih hrest, List.drop_tail]
    · exact absurd ht hhalt

/-- A batch that has halted within its first `n` steps answers what they did. -/
theorem stepBatch_add_of_halted {n : Nat} (m : Nat) {rands : List Byte} {s t : State} (hs : s.status = .running)
    (h : stepBatch n rands s = .next t) (ht : t.status ≠ .running) : stepBatch (n + m) rands s = .next t := by
  induction n generalizing rands s with
  | zero =>
    cases h
    exact absurd hs ht
  | succ n ih =>
    obtain ⟨u, hu, ⟨hrun, hrest⟩ | ⟨hhalt, rfl⟩⟩ := stepBatch_succ_cases h
    · rw [Nat.succ_add, stepBatch_succ_of_running hu hrun, ih hrun hrest]
    · rw [Nat.succ_add, stepBatch_succ_of_halted hu hhalt]

/-- A batch whose first `n` steps fault faults. -/
theorem stepBatch_add_of_fault {n : Nat} (m : Nat) {rands : List Byte} {s : State} {f : Fault}
    (h : stepBatch n rands s = .fault f) : stepBatch (n + m) rands s = .fault f := by
  induction n generalizing rands s with
  | zero => cases h
  | succ n ih =>
    rcases stepBatch_succ_fault_cases h with hf | ⟨u, hu, hrun, hrest⟩
    · rw [Nat.succ_add, stepBatch_succ_of_fault hf]
    · rw [Nat.succ_add, stepBatch_succ_of_running hu hrun, ih hrest]

/-- Settles O55: the batch of one step, and the batch cut after `n` steps. -/
theorem batchStopsAtFirstHalt : Obligations.BatchStopsAtFirstHalt :=
  ⟨fun rands s => ⟨rfl, stepBatch_one rands s⟩,
    fun _ m _ _ _ hs h => ⟨stepBatch_add_of_running m h, stepBatch_add_of_halted m hs h⟩,
    fun _ m _ _ _ h => stepBatch_add_of_fault m h⟩

theorem stepBatch_key {n : Nat} {rands : List Byte} {s t : State} (h : stepBatch n rands s = .next t) :
    t.key = s.key := by
  induction n generalizing rands s with
  | zero =>
    cases h
    rfl
  | succ n ih =>
    obtain ⟨u, hu, ⟨-, hrest⟩ | ⟨-, rfl⟩⟩ := stepBatch_succ_cases h
    · exact (ih hrest).trans (stepWith_key hu)
    · exact stepWith_key hu

/-- Settles O7: the step of a halted core answers the same state, so the first step of a batch ends it. -/
theorem haltedCoreIsFrozenUntilReset : Obligations.HaltedCoreIsFrozenUntilReset := by
  intro s e h
  refine ⟨step_halted h, tick_halted h, fun hoffer n rands => ?batch, rfl⟩
  case batch =>
    cases n with
    | zero => rfl
    | succ n =>
      have hstep : step (s.setRandOffer rands.head?) = .next (s.setRandOffer rands.head?) := step_halted h
      have hself : (s.setRandOffer rands.head?).setRandOffer none = s := State.setRandOffer_self hoffer
      exact stepBatch_succ_of_halted (hself ▸ stepWith_of_next hstep) (by rw [h]; exact nofun)

/-! ### The frame -/

theorem frame_of_next {keys : Vector Bool 16} {rands : List Byte} {s t : State}
    (h : stepBatch Config.stepsPerFrame rands (setKeys keys s) = .next t) : frame keys rands s = .next (tick t) := by
  simp only [frame, h]

/-- A frame that answers a next state: its batch does, and one tick follows. -/
theorem frame_cases {keys : Vector Bool 16} {rands : List Byte} {s t : State} (h : frame keys rands s = .next t) :
    ∃ u, stepBatch Config.stepsPerFrame rands (setKeys keys s) = .next u ∧ t = tick u := by
  unfold frame at h
  split at h
  case h_1 u hu => exact ⟨u, hu, (Host.Outcome.next.inj h).symm⟩
  case h_2 => cases h
  case h_3 => cases h

/-- Settles O56: no step writes the keypad, and no tick does. -/
theorem keypadIsConstantWithinBatch : Obligations.KeypadIsConstantWithinBatch := by
  refine ⟨fun n rands s t h => stepBatch_key h, fun keys rands s t h k => ?frame⟩
  case frame =>
    obtain ⟨u, hu, rfl⟩ := frame_cases h
    have hkey : (tick u).key = keys := (tick_key u).trans (stepBatch_key hu)
    rw [State.keyAt, hkey]

/-- Settles O57: the frame ends with the tick of the running core its batch left. -/
theorem frameTicksOnce : Obligations.FrameTicksOnce := by
  intro keys rands s t h hrun
  refine ⟨tick t, frame_of_next h, toNat_dt_tick_of_running hrun, toNat_st_tick_of_running hrun, ?pc⟩
  case pc => rw [tick_of_running hrun, State.setSt_pc, State.setDt_pc]

end Sys2Proof.Machine
end
